-- ==== Sys2Proof/Word.lean ====
section
/-! DEFINITION. The word types of the block (00_scope.md R6, R10). -/

namespace Sys2Proof

/-- A general register, a timer, a memory cell, an immediate `nn` (10_state.md R20, 30_encoding.md R84). -/
abbrev Byte := BitVec 8

/-- An instruction word, PC, I or a return address (10_state.md R23, R25, R26; 30_encoding.md R80). -/
abbrev Word := BitVec 16

/-- A 4-bit field used as a number: a register index x or y, or the row count n (30_encoding.md R84, R91). -/
abbrev Nibble := Fin 16

/-- The 12-bit address field nnn (30_encoding.md R84). -/
abbrev Addr := BitVec 12

/-- A time in milliseconds, exact (92_eei_decisions.md D25). -/
abbrev Time := Rat

end Sys2Proof
end

