-- ==== Sys2Proof/Machine/Flags.lean ====
section
/-! DEFINITION. What VF receives as a flag (10_state.md R21). -/

namespace Sys2Proof.Machine

/-- The register the flags go to. -/
def vf : Nibble := 15

/-- 8xy4: 1 exactly when the untruncated sum exceeds 255 (41_alu.md R126). -/
def carryFlag (sum : Nat) : Byte := if sum > 255 then 1 else 0

/-- 8xy5: 1 exactly when V[x] > V[y], strict and unsigned (41_alu.md R127). -/
def greaterFlag (a b : Byte) : Byte := if a.toNat > b.toNat then 1 else 0

/-- Dxyn: the collision flag of the draw (43_display.md R164). -/
def collisionFlag (c : Bool) : Byte := if c then 1 else 0

end Sys2Proof.Machine
end

