-- ==== Sys2Proof/Config.lean ====
section
/-! DEFINITION. What an implementation fixes (00_scope.md R7) and the free values of the `rng` input. -/

namespace Sys2Proof

/-- The parameters of 00_scope.md R7 that a model takes as arguments. `exec`'s type is the host's, so they stand
in `State`, where no operation writes them. -/
structure Params where
  /-- STACK_DEPTH: `some d` caps the return stack at `d` entries, `none` leaves it unbounded (D4). -/
  stackDepth : Option Nat
  /-- FONT: the 80 glyph bytes of addresses 0x050-0x09F (10_state.md R33, D18). -/
  font : Vector Byte 80
deriving DecidableEq, Repr

/-- R7's limit on STACK_DEPTH: a natural number of at least 16, or unbounded. -/
abbrev Params.legal (p : Params) : Prop := ∀ d ∈ p.stackDepth, 16 ≤ d

/-- The `k`-th byte the `rng` input supplies: any byte at all, with no law relating two draws
(41_alu.md R128, 92_eei_decisions.md D22). -/
opaque Config.drawByte : Nat → Byte

end Sys2Proof
end

