-- ==== Sys2Proof/Machine/Defaults.lean ====
section
/-! DEFINITION. The fixed sizes of 00_scope.md R6 and the defaults of R7. -/

namespace Sys2Proof.Machine

/-- MEM_SIZE: addresses 0x000-0xFFF (R6). -/
def memSize : Nat := 4096

/-- FONT_BASE (R6). -/
def fontBase : Nat := 0x050

/-- PROGRAM_BASE, which is also the initial PC (R6, 20_memory.md R59). -/
def programBase : Nat := 0x200

/-- MAX_PROGRAM_LEN (R6). -/
def maxProgramLen : Nat := 3584

/-- The default of STACK_DEPTH (R7). -/
def defaultStackDepth : Option Nat := some 16

/-- The default of FONT (10_state.md R33), glyphs 0 to F, top row first. PRESUMED: the spec takes these bytes from general
knowledge (log entry 1). -/
def defaultFont : Vector Byte 80 :=
  #v[0xF0, 0x90, 0x90, 0x90, 0xF0, 0x20, 0x60, 0x20, 0x20, 0x70, 0xF0, 0x10, 0xF0, 0x80, 0xF0, 0xF0, 0x10, 0xF0, 0x10, 0xF0,
     0x90, 0x90, 0xF0, 0x10, 0x10, 0xF0, 0x80, 0xF0, 0x10, 0xF0, 0xF0, 0x80, 0xF0, 0x90, 0xF0, 0xF0, 0x10, 0x20, 0x40, 0x40,
     0xF0, 0x90, 0xF0, 0x90, 0xF0, 0xF0, 0x90, 0xF0, 0x10, 0xF0, 0xF0, 0x90, 0xF0, 0x90, 0x90, 0xE0, 0x90, 0xE0, 0x90, 0xE0,
     0xF0, 0x80, 0x80, 0x80, 0xF0, 0xE0, 0x90, 0x90, 0x90, 0xE0, 0xF0, 0x80, 0xF0, 0x80, 0xF0, 0xF0, 0x80, 0xF0, 0x80, 0x80]

/-- The construction value of `ips` (10_state.md R36). -/
def defaultIps : Nat := 600

/-- The parameters at their defaults (R7). -/
def defaultParams : Params := { stackDepth := defaultStackDepth, font := defaultFont }

end Sys2Proof.Machine
end

