-- ==== Sys2Proof/Machine/Operands.lean ====
section
/-! DEFINITION. The operand forms: addresses, immediates, sprite origins and decimal digits. -/

namespace Sys2Proof.Machine

/-- `zext_16(nnn)` (30_encoding.md R84). -/
def zext16 (nnn : Addr) : Word := nnn.setWidth 16

/-- The effective address `I + k`, an ordinary sum, not reduced (42_index_memory.md R146). -/
def effAddr (i : Word) (k : Nat) : Nat := i.toNat + k

/-- Whether an access whose last address is `last` stays inside the array (20_memory.md R56). -/
def inBounds (last : Nat) : Bool := last ≤ 0xFFF

/-- Whether Dxyn with I = `i` and `n` rows reads inside the array. With n = 0 it reads nothing (20_memory.md R56). -/
def spriteInBounds (i : Word) (n : Nibble) : Bool := n.val == 0 || inBounds (effAddr i (n.val - 1))

/-- `(I + V[x]) mod 4096` (42_index_memory.md R141). -/
def indexSum (i : Word) (b : Byte) : Word := BitVec.ofNat 16 ((i.toNat + b.toNat) % 4096)

/-- `0x050 + V[x] * 5`, on the whole byte (42_index_memory.md R142). -/
def glyphAddr (b : Byte) : Word := BitVec.ofNat 16 (fontBase + b.toNat * 5)

/-- The decimal digits of a byte, hundreds first (42_index_memory.md R143). -/
def bcdDigits (b : Byte) : List Byte :=
  [BitVec.ofNat 8 (b.toNat / 100), BitVec.ofNat 8 (b.toNat / 10 % 10), BitVec.ofNat 8 (b.toNat % 10)]

/-- The untruncated sum of 8xy4, 0..510 (41_alu.md R126). -/
def byteSum (a b : Byte) : Nat := a.toNat + b.toNat

/-- The column of a sprite's origin (43_display.md R162). -/
def originX (b : Byte) : Nat := b.toNat % 64

/-- The row of a sprite's origin (R162). -/
def originY (b : Byte) : Nat := b.toNat % 32

end Sys2Proof.Machine
end

