-- ==== Sys2Proof/Machine/Display.lean ====
section
/-! DEFINITION. The display unit: the buffer, `clear()` and `drawSprite()` (43_display.md R160-R165). -/

namespace Sys2Proof.Machine

/-- `disp[c][r]` for column c in 0..63 and row r in 0..31 (10_state.md R30). -/
abbrev Display := Vector (Vector Bool 32) 64

/-- The cell `disp[c][r]`. -/
def Display.get (d : Display) (c : Fin 64) (r : Fin 32) : Bool := d[c][r]

/-- `disp[c][r] <- disp[c][r] XOR 1`. -/
def Display.toggle (d : Display) (c : Fin 64) (r : Fin 32) : Display := d.set c (d[c].set r (!d[c][r]))

/-- `clear()` (R160): the buffer with every cell 0. -/
def Display.clear : Display := Vector.replicate 64 (Vector.replicate 32 false)

/-- One visit of R163's inner loop: sprite row `r` holds the byte `row`, and column `c` counts from its most significant bit.
The pair carries the buffer and the collision flag so far. -/
def Display.drawBit (ox oy r : Nat) (row : Byte) (acc : Display × Bool) (c : Nat) : Display × Bool :=
  if row.getLsbD (7 - c) then
    let col := Fin.ofNat 64 (ox + c)
    let line := Fin.ofNat 32 (oy + r)
    (acc.1.toggle col line, acc.2 || acc.1.get col line)
  else acc

/-- The 8 columns of sprite row `r` (R163). -/
def Display.drawRow (ox oy r : Nat) (row : Byte) (acc : Display × Bool) : Display × Bool :=
  (List.range 8).foldl (Display.drawBit ox oy r row) acc

/-- The rows of a sprite from row `r` on, top first (R163). -/
def Display.drawRows (ox oy : Nat) : Nat → List Byte → Display × Bool → Display × Bool
  | _, [], acc => acc
  | r, row :: rows, acc => Display.drawRows ox oy (r + 1) rows (Display.drawRow ox oy r row acc)

/-- `drawSprite(ox, oy, bytes)` (R163): the buffer after the sprite is XORed in, and the collision flag, which starts at 0
for every draw (R164). -/
def Display.drawSprite (ox oy : Nat) (bytes : List Byte) (d : Display) : Display × Bool :=
  Display.drawRows ox oy 0 bytes (d, false)

end Sys2Proof.Machine
end

