-- ==== Sys2Proof/Machine/Memory.lean ====
section
/-! DEFINITION. The memory array (10_state.md R29, 20_memory.md R50): the bytes that differ from the reset contents, as
address and byte pairs in one canonical form. -/

namespace Sys2Proof.Machine

/-- The bytes that differ from the reset contents, addresses strictly rising. -/
abbrev Memory := List Host.Cell

/-- What an unlisted address reads as: the reset contents of 20_memory.md R58, the glyphs of `font` at 0x050-0x09F and zero
elsewhere. -/
def Memory.unlisted (font : Vector Byte 80) (a : Nat) : Byte :=
  if fontBase ≤ a then font.getD (a - fontBase) 0 else 0

/-- The byte at address `a`. -/
def Memory.read (font : Vector Byte 80) : Memory → Nat → Byte
  | [], a => Memory.unlisted font a
  | c :: rest, a => if c.1 = a then c.2 else Memory.read font rest a

/-- Lists byte `b` at `a`, in address order. -/
def Memory.insert (a : Nat) (b : Byte) : Memory → Memory
  | [] => [(a, b)]
  | c :: rest => if a < c.1 then (a, b) :: c :: rest else c :: Memory.insert a b rest

/-- `mem[a] <- b` (00_scope.md R9): the old entry goes, and the new one is listed only where it differs from what an unlisted
address reads as. -/
def Memory.write (font : Vector Byte 80) (m : Memory) (a : Nat) (b : Byte) : Memory :=
  let others := m.filter fun c => c.1 ≠ a
  if b = Memory.unlisted font a then others else Memory.insert a b others

/-- Writes `bytes` at `a`, `a + 1`, and so on, one byte after another. -/
def Memory.writeBytes (font : Vector Byte 80) : Memory → Nat → List Byte → Memory
  | m, _, [] => m
  | m, a, b :: bytes => Memory.writeBytes font (Memory.write font m a b) (a + 1) bytes

/-- The memory with every address from `base` up as an unlisted one reads: zero, for a `base` above the font. -/
def Memory.clearFrom (m : Memory) (base : Nat) : Memory := m.filter fun c => c.1 < base

/-- The canonical form: addresses strictly rising and inside the array, and no entry equal to what an unlisted address
reads as. -/
abbrev Memory.wf (font : Vector Byte 80) (m : Memory) : Prop :=
  m.Pairwise (fun c d => c.1 < d.1) ∧ ∀ c ∈ m, c.1 < memSize ∧ c.2 ≠ Memory.unlisted font c.1

end Sys2Proof.Machine
end

