-- ==== Sys2Proof/Machine/State.lean ====
section
/-! DEFINITION. The state of the block (10_state.md), why a step or a port can stop, and the state after reset. -/

namespace Sys2Proof.Machine

/-- The fault register (10_state.md R38). -/
structure FaultReg where
  valid : Bool
  cause : BitVec 3
  pc : Word
deriving DecidableEq, Repr

/-- The fault register as reset and construction leave it (R38). -/
def FaultReg.clear : FaultReg := { valid := false, cause := 0, pc := 0 }

/-- Everything the spec gives the machine (10_state.md R20-R38), and the model's own `params` and `draws`. -/
structure State where
  /-- STACK_DEPTH and FONT (00_scope.md R7). No operation writes them. -/
  params : Params
  /-- V0-VF (R20). V15 is VF, the flags register (R21). -/
  v : Vector Byte 16
  /-- I, the index register (R25). -/
  i : Word
  /-- PC (R23). -/
  pc : Word
  /-- The return stack (R26), oldest entry first: a push appends, a pop takes the last. -/
  stack : List Word
  /-- DT, the delay timer (R27). -/
  dt : Byte
  /-- ST, the sound timer (R28). -/
  st : Byte
  /-- The memory array (R29). -/
  mem : Memory
  /-- The display buffer (R30). -/
  disp : Display
  /-- The input state (R31). -/
  key : Vector Bool 16
  /-- R34. -/
  paused : Bool
  /-- R35. -/
  running : Bool
  /-- R36: instructions per second. -/
  ips : Nat
  /-- R37: the time the scheduler measures from. -/
  baseline : Time
  /-- R38. -/
  fault : FaultReg
  /-- How many bytes the `rng` input has supplied (the model's own; log entry 3). -/
  draws : Nat
deriving DecidableEq, Repr

/-- No constructor: the machine stops at nothing. Every fault of 60_exceptions.md R212 is entered into the fault register, a
next state (R213), and a faulted step is a next state too (R215). Nobody raises a value of this type: safe and unsafe do not
arise. -/
inductive Fault
deriving DecidableEq, Repr

/-- Why a step or a port answers nothing. -/
inductive Refusal where
  /-- An instruction without a meaning. No arm of `exec` raises it: every instruction has its meaning. Safe. -/
  | notModelled (mnemonic : String)
  /-- The ports `start` and `tick`, and a run of host calls: the host passed a time below an earlier one, which is outside the
  spec (60_exceptions.md R244). Safe: no claim holds of such a call. -/
  | timeDecreased
deriving DecidableEq, Repr

/-- What a step answers. -/
abbrev StepOutcome := Host.Outcome State Fault Refusal

/-- The machine after construction and reset (10_state.md R40; 70_reset_and_hazards.md R260, R261). The four items that reset()
leaves unchanged stand at their construction values (log entry 5). -/
def State.reset : State where
  params := defaultParams
  v := Vector.replicate 16 0
  i := 0
  pc := 0x200
  stack := []
  dt := 0
  st := 0
  mem := []
  disp := Display.clear
  key := Vector.replicate 16 false
  paused := false
  running := false
  ips := defaultIps
  baseline := 0
  fault := FaultReg.clear
  draws := 0

end Sys2Proof.Machine
end

