-- ==== Sys2Proof/Machine/Ops.lean ====
section
/-! DEFINITION. The named operations over registers, memory, stack, timers and input, entering a fault, and leaving it. -/

namespace Sys2Proof.Machine

/-- `V[x]` (00_scope.md R9). -/
def State.getV (s : State) (x : Nibble) : Byte := s.v[x]

/-- `V[x] <- b`. No register is hard-wired (10_state.md R20). -/
def State.setV (s : State) (x : Nibble) (b : Byte) : State := { s with v := s.v.set x b }

/-- `PC <- a`. -/
def State.setPc (s : State) (a : Word) : State := { s with pc := a }

/-- The fetch increment, made before the instruction executes (30_encoding.md R81). Every meaning starts from it. -/
def State.fetched (s : State) : State := { s with pc := s.pc + 2 }

/-- The skip of 40_flow.md R106: a further `PC <- PC + 2` when the condition holds. -/
def State.skipIf (s : State) (c : Bool) : State := if c then { s with pc := s.pc + 2 } else s

/-- `I <- a`. -/
def State.setI (s : State) (a : Word) : State := { s with i := a }

/-- `DT <- b`. -/
def State.setDt (s : State) (b : Byte) : State := { s with dt := b }

/-- `ST <- b`. -/
def State.setSt (s : State) (b : Byte) : State := { s with st := b }

/-- `mem[a]`. -/
def State.readByte (s : State) (a : Nat) : Byte := Memory.read s.params.font s.mem a

/-- The `n` bytes `mem[a] .. mem[a+n-1]`. -/
def State.readBytes (s : State) (a n : Nat) : List Byte := (List.range n).map fun k => s.readByte (a + k)

/-- `MemWrite` of one byte after another from address `a` on (42_index_memory.md R143, R144). -/
def State.storeBytes (s : State) (a : Nat) (bytes : List Byte) : State :=
  { s with mem := Memory.writeBytes s.params.font s.mem a bytes }

/-- `V[k] <- mem[a+k]` for k in 0..x, inclusive (42_index_memory.md R145). -/
def State.loadRange (s : State) (a : Nat) (x : Nibble) : State :=
  { s with v := Vector.ofFn fun k : Fin 16 => if k.val ≤ x.val then s.readByte (a + k.val) else s.v[k] }

/-- Whether the stack holds STACK_DEPTH entries (40_flow.md R102). Unbounded, it is never full. -/
def State.stackFull (s : State) : Bool :=
  match s.params.stackDepth with
  | none => false
  | some d => s.stack.length == d

/-- `push(a)` (00_scope.md R9). -/
def State.push (s : State) (a : Word) : State := { s with stack := s.stack ++ [a] }

/-- `pop()`: the last entry and the state without it, or nothing when the stack is empty (40_flow.md R100). -/
def State.pop (s : State) : Option (Word × State) :=
  match s.stack.getLast? with
  | none => none
  | some a => some (a, { s with stack := s.stack.dropLast })

/-- `key[b]`, or nothing when `b` is above 0xF and names no key (44_input_timers.md R185). -/
def State.keyAt (s : State) (b : Byte) : Option Bool := s.key[b.toNat]?

/-- `draw_byte()` (00_scope.md R9): the next byte of the `rng` input, and the state after the draw (log entry 3). -/
def State.drawByte (s : State) : Byte × State := (Config.drawByte s.draws, { s with draws := s.draws + 1 })

/-- `disp` and VF after `drawSprite` of `bytes` (43_display.md R162). -/
def State.drawAt (s : State) (ox oy : Nat) (bytes : List Byte) : State :=
  let drawn := Display.drawSprite ox oy bytes s.disp
  { s with disp := drawn.1 }.setV vf (collisionFlag drawn.2)

/-- `clear()` (43_display.md R160). -/
def State.clearDisplay (s : State) : State := { s with disp := Display.clear }

/-- The fault causes (60_exceptions.md R212). -/
inductive FaultCause where
  /-- The fetch of a step with PC > 0xFFE. -/
  | boundsFetch
  /-- Dxyn, Fx33, Fx55, Fx65 whose range goes past 0xFFF. -/
  | boundsData
  /-- 00EE with an empty stack. -/
  | stackUnderflow
  /-- 2nnn with a full stack. -/
  | stackOverflow
  /-- Ex9E, ExA1 with V[x] > 0xF. -/
  | keyIndex
deriving DecidableEq, Repr

/-- The cause codes of R212. -/
def causeCode : FaultCause → BitVec 3
  | .boundsFetch => 1
  | .boundsData => 2
  | .stackUnderflow => 3
  | .stackOverflow => 4
  | .keyIndex => 5

/-- `s` with the fault register saying that `c` was raised by the step that started in `s`. -/
def State.faulted (s : State) (c : FaultCause) : State :=
  { s with fault := { valid := true, cause := causeCode c, pc := s.pc } }

/-- Fault entry (60_exceptions.md R213). `s` is the state at the start of the step: nothing of the step is committed, the fetch
increment included, and the fault register receives the cause and that state's PC. -/
def raiseFault (c : FaultCause) (s : State) : StepOutcome := .next (s.faulted c)

/-- `reset()` (70_reset_and_hazards.md R261), the one way out of a fault (60_exceptions.md R216). `key`, `running`, `ips` and
`baseline` stay, and so do the model's own `params` and `draws`. -/
def State.afterReset (s : State) : State :=
  { s with
    mem := []
    v := Vector.replicate 16 0
    i := 0
    stack := []
    dt := 0
    st := 0
    pc := BitVec.ofNat 16 programBase
    paused := false
    disp := Display.clear
    fault := FaultReg.clear }

end Sys2Proof.Machine
end

