-- ==== Sys2Proof/Machine/Alu.lean ====
section
/-! DEFINITION. Register loads, arithmetic, logic and the random byte (41_alu.md). None of them faults. -/

namespace Sys2Proof.Machine

/-- 6xnn (R120). -/
def execLdImm (x : Nibble) (nn : Byte) (s : State) : StepOutcome := .next (s.fetched.setV x nn)

/-- 7xnn (R121): no carry flag (90_conflicts.md C1). -/
def execAddImm (x : Nibble) (nn : Byte) (s : State) : StepOutcome := .next (s.fetched.setV x (s.getV x + nn))

/-- 8xy0 (R122). -/
def execLdReg (x y : Nibble) (s : State) : StepOutcome := .next (s.fetched.setV x (s.getV y))

/-- 8xy1 (R123). -/
def execOrReg (x y : Nibble) (s : State) : StepOutcome := .next (s.fetched.setV x (s.getV x ||| s.getV y))

/-- 8xy2 (R124). -/
def execAndReg (x y : Nibble) (s : State) : StepOutcome := .next (s.fetched.setV x (s.getV x &&& s.getV y))

/-- 8xy3 (R125). -/
def execXorReg (x y : Nibble) (s : State) : StepOutcome := .next (s.fetched.setV x (s.getV x ^^^ s.getV y))

/-- 8xy4 (R126): the sum is taken from the old registers, VF is written, and then V[x]. -/
def execAddReg (x y : Nibble) (s : State) : StepOutcome :=
  let sum := byteSum (s.getV x) (s.getV y)
  .next ((s.fetched.setV vf (carryFlag sum)).setV x (BitVec.ofNat 8 sum))

/-- 8xy5 (R127): VF is written, and then the subtraction reads the registers as that write left them
(92_eei_decisions.md D8). -/
def execSubReg (x y : Nibble) (s : State) : StepOutcome :=
  let t := s.fetched.setV vf (greaterFlag (s.getV x) (s.getV y))
  .next (t.setV x (t.getV x - t.getV y))

/-- Cxnn (R128): a fresh free byte for each execution. -/
def execRnd (x : Nibble) (nn : Byte) (s : State) : StepOutcome :=
  let drawn := s.fetched.drawByte
  .next (drawn.2.setV x (drawn.1 &&& nn))

end Sys2Proof.Machine
end

