-- ==== Sys2Proof/Machine/Draw.lean ====
section
/-! DEFINITION. The display instructions CLS and DRW (43_display.md R161, R162). -/

namespace Sys2Proof.Machine

/-- 00E0 (R161): VF is not changed. -/
def execCls (s : State) : StepOutcome := .next s.fetched.clearDisplay

/-- Dxyn (R162): the origin is read before VF is written, and the whole sprite range is checked first. -/
def execDrw (x y n : Nibble) (s : State) : StepOutcome :=
  if spriteInBounds s.i n then
    .next (s.fetched.drawAt (originX (s.getV x)) (originY (s.getV y)) (s.readBytes (effAddr s.i 0) n.val))
  else raiseFault .boundsData s

end Sys2Proof.Machine
end

