-- ==== Sys2Proof/Machine/Flow.lean ====
section
/-! DEFINITION. Control flow: RET, JP, CALL and the compare skips (40_flow.md). Each meaning takes the state at the start of the
step and makes the fetch increment itself, so that a fault can be entered from that state. -/

namespace Sys2Proof.Machine

/-- 00EE (R100). -/
def execRet (s : State) : StepOutcome :=
  match s.fetched.pop with
  | none => raiseFault .stackUnderflow s
  | some (a, t) => .next (t.setPc a)

/-- 1nnn (R101). -/
def execJp (nnn : Addr) (s : State) : StepOutcome := .next (s.fetched.setPc (zext16 nnn))

/-- 2nnn (R102). -/
def execCall (nnn : Addr) (s : State) : StepOutcome :=
  if s.stackFull then raiseFault .stackOverflow s
  else .next ((s.fetched.push s.fetched.pc).setPc (zext16 nnn))

/-- 3xnn (R103). -/
def execSeImm (x : Nibble) (nn : Byte) (s : State) : StepOutcome := .next (s.fetched.skipIf (s.getV x == nn))

/-- 4xnn (R104). -/
def execSneImm (x : Nibble) (nn : Byte) (s : State) : StepOutcome := .next (s.fetched.skipIf (s.getV x != nn))

/-- 5xy0 (R105). -/
def execSeReg (x y : Nibble) (s : State) : StepOutcome := .next (s.fetched.skipIf (s.getV x == s.getV y))

end Sys2Proof.Machine
end

