-- ==== Sys2Proof/Machine/IndexMemory.lean ====
section
/-! DEFINITION. The index register, loads and stores (42_index_memory.md). No load or store changes I (R146). -/

namespace Sys2Proof.Machine

/-- Annn (R140). -/
def execLdI (nnn : Addr) (s : State) : StepOutcome := .next (s.fetched.setI (zext16 nnn))

/-- Fx1E (R141): no overflow flag. -/
def execAddI (x : Nibble) (s : State) : StepOutcome := .next (s.fetched.setI (indexSum s.i (s.getV x)))

/-- Fx29 (R142). -/
def execLdF (x : Nibble) (s : State) : StepOutcome := .next (s.fetched.setI (glyphAddr (s.getV x)))

/-- Fx33 (R143). -/
def execLdB (x : Nibble) (s : State) : StepOutcome :=
  if inBounds (effAddr s.i 2) then .next (s.fetched.storeBytes (effAddr s.i 0) (bcdDigits (s.getV x)))
  else raiseFault .boundsData s

/-- Fx55 (R144). -/
def execStoreRegs (x : Nibble) (s : State) : StepOutcome :=
  if inBounds (effAddr s.i x.val) then .next (s.fetched.storeBytes (effAddr s.i 0) (s.v.toList.take (x.val + 1)))
  else raiseFault .boundsData s

/-- Fx65 (R145). -/
def execLoadRegs (x : Nibble) (s : State) : StepOutcome :=
  if inBounds (effAddr s.i x.val) then .next (s.fetched.loadRange (effAddr s.i 0) x)
  else raiseFault .boundsData s

end Sys2Proof.Machine
end

