-- ==== Sys2Proof/Machine/InputTimers.lean ====
section
/-! DEFINITION. The key skips and timer access (44_input_timers.md). -/

namespace Sys2Proof.Machine

/-- Ex9E (R180). -/
def execSkp (x : Nibble) (s : State) : StepOutcome :=
  match s.keyAt (s.getV x) with
  | none => raiseFault .keyIndex s
  | some pressed => .next (s.fetched.skipIf pressed)

/-- ExA1 (R181). -/
def execSknp (x : Nibble) (s : State) : StepOutcome :=
  match s.keyAt (s.getV x) with
  | none => raiseFault .keyIndex s
  | some pressed => .next (s.fetched.skipIf (!pressed))

/-- Fx07 (R182). -/
def execLdVxDt (x : Nibble) (s : State) : StepOutcome := .next (s.fetched.setV x s.dt)

/-- Fx15 (R183). -/
def execLdDtVx (x : Nibble) (s : State) : StepOutcome := .next (s.fetched.setDt (s.getV x))

/-- Fx18 (R184). -/
def execLdStVx (x : Nibble) (s : State) : StepOutcome := .next (s.fetched.setSt (s.getV x))

end Sys2Proof.Machine
end

