-- ==== Sys2Proof/Machine/Unassigned.lean ====
section
/-! DEFINITION. The no-op of every word that matches no row of the opcode map (45_unassigned.md R200). -/

namespace Sys2Proof.Machine

/-- Any other word (R200): nothing but the fetch increment. The word's bits are ignored. -/
def execNoop (_w : Word) (s : State) : StepOutcome := .next s.fetched

end Sys2Proof.Machine
end

