-- ==== Sys2Proof/Syntax.lean ====
section
/-! DEFINITION. The instructions: one constructor for each row of the opcode map (30_encoding.md R86). -/

namespace Sys2Proof

/-- The 28 instructions of R86 with their operand fields, and the no-op. -/
inductive Instr where
  /-- 00E0, CLS. -/
  | cls
  /-- 00EE, RET. -/
  | ret
  /-- 1nnn, JP nnn. -/
  | jp (nnn : Addr)
  /-- 2nnn, CALL nnn. -/
  | call (nnn : Addr)
  /-- 3xnn, SE Vx, nn. -/
  | seImm (x : Nibble) (nn : Byte)
  /-- 4xnn, SNE Vx, nn. -/
  | sneImm (x : Nibble) (nn : Byte)
  /-- 5xy0, SE Vx, Vy. -/
  | seReg (x y : Nibble)
  /-- 6xnn, LD Vx, nn. -/
  | ldImm (x : Nibble) (nn : Byte)
  /-- 7xnn, ADD Vx, nn. -/
  | addImm (x : Nibble) (nn : Byte)
  /-- 8xy0, LD Vx, Vy. -/
  | ldReg (x y : Nibble)
  /-- 8xy1, OR Vx, Vy. -/
  | orReg (x y : Nibble)
  /-- 8xy2, AND Vx, Vy. -/
  | andReg (x y : Nibble)
  /-- 8xy3, XOR Vx, Vy. -/
  | xorReg (x y : Nibble)
  /-- 8xy4, ADD Vx, Vy. -/
  | addReg (x y : Nibble)
  /-- 8xy5, SUB Vx, Vy. -/
  | subReg (x y : Nibble)
  /-- Annn, LD I, nnn. -/
  | ldI (nnn : Addr)
  /-- Cxnn, RND Vx, nn. -/
  | rnd (x : Nibble) (nn : Byte)
  /-- Dxyn, DRW Vx, Vy, n. -/
  | drw (x y n : Nibble)
  /-- Ex9E, SKP Vx. -/
  | skp (x : Nibble)
  /-- ExA1, SKNP Vx. -/
  | sknp (x : Nibble)
  /-- Fx07, LD Vx, DT. -/
  | ldVxDt (x : Nibble)
  /-- Fx15, LD DT, Vx. -/
  | ldDtVx (x : Nibble)
  /-- Fx18, LD ST, Vx. -/
  | ldStVx (x : Nibble)
  /-- Fx1E, ADD I, Vx. -/
  | addI (x : Nibble)
  /-- Fx29, LD F, Vx. -/
  | ldF (x : Nibble)
  /-- Fx33, LD B, Vx. -/
  | ldB (x : Nibble)
  /-- Fx55, LD [I], Vx. -/
  | storeRegs (x : Nibble)
  /-- Fx65, LD Vx, [I]. -/
  | loadRegs (x : Nibble)
  /-- Any other word `w` (45_unassigned.md R200). The word is kept so that encoding gives it back; its meaning ignores it. -/
  | noop (w : Word)
deriving DecidableEq, Repr

end Sys2Proof
end

