-- ==== Sys2Proof/Decode.lean ====
section
/-! DEFINITION. The decoder, total on words and on bytes, and the encoder (30_encoding.md R80-R92). -/

namespace Sys2Proof

/-- The high nibble `w[15:12]`, the first decode key (R82). -/
def opField (w : Word) : Nibble := (w.extractLsb 15 12).toFin

/-- `x = w[11:8]` (00_scope.md R10). -/
def xField (w : Word) : Nibble := (w.extractLsb 11 8).toFin

/-- `y = w[7:4]`. -/
def yField (w : Word) : Nibble := (w.extractLsb 7 4).toFin

/-- `n = w[3:0]`. -/
def nField (w : Word) : Nibble := (w.extractLsb 3 0).toFin

/-- `nn = w[7:0]`. -/
def nnField (w : Word) : Byte := w.extractLsb 7 0

/-- `nnn = w[11:0]`. -/
def nnnField (w : Word) : Addr := w.extractLsb 11 0

/-- The rows with high nibble 0, whose 16 bits are all fixed (R85). -/
def decodeZero (w : Word) : Instr :=
  if w = 0x00E0 then .cls else if w = 0x00EE then .ret else .noop w

/-- The rows with high nibble 8: op and n are fixed (R85). -/
def decodeEight (w : Word) : Instr :=
  match nField w with
  | 0 => .ldReg (xField w) (yField w)
  | 1 => .orReg (xField w) (yField w)
  | 2 => .andReg (xField w) (yField w)
  | 3 => .xorReg (xField w) (yField w)
  | 4 => .addReg (xField w) (yField w)
  | 5 => .subReg (xField w) (yField w)
  | _ => .noop w

/-- The rows with high nibble E: op and nn are fixed (R85). -/
def decodeE (w : Word) : Instr :=
  if nnField w = 0x9E then .skp (xField w)
  else if nnField w = 0xA1 then .sknp (xField w)
  else .noop w

/-- The rows with high nibble F: op and nn are fixed (R85). -/
def decodeF (w : Word) : Instr :=
  if nnField w = 0x07 then .ldVxDt (xField w)
  else if nnField w = 0x15 then .ldDtVx (xField w)
  else if nnField w = 0x18 then .ldStVx (xField w)
  else if nnField w = 0x1E then .addI (xField w)
  else if nnField w = 0x29 then .ldF (xField w)
  else if nnField w = 0x33 then .ldB (xField w)
  else if nnField w = 0x55 then .storeRegs (xField w)
  else if nnField w = 0x65 then .loadRegs (xField w)
  else .noop w

/-- R85, R92: every word is one of the 28 instructions with its fields, or the no-op. -/
def decodeWord (w : Word) : Instr :=
  match opField w with
  | 0x0 => decodeZero w
  | 0x1 => .jp (nnnField w)
  | 0x2 => .call (nnnField w)
  | 0x3 => .seImm (xField w) (nnField w)
  | 0x4 => .sneImm (xField w) (nnField w)
  | 0x5 => if nField w = 0 then .seReg (xField w) (yField w) else .noop w
  | 0x6 => .ldImm (xField w) (nnField w)
  | 0x7 => .addImm (xField w) (nnField w)
  | 0x8 => decodeEight w
  | 0x9 => .noop w
  | 0xA => .ldI (nnnField w)
  | 0xB => .noop w
  | 0xC => .rnd (xField w) (nnField w)
  | 0xD => .drw (xField w) (yField w) (nField w)
  | 0xE => decodeE w
  | _ => decodeF w -- 0xF, the one nibble left

/-- The one way bytes fail to hold an instruction: no word of 16 bits fails (R89). -/
inductive DecodeError where
  /-- Fewer than two bytes are left. -/
  | truncated
deriving DecidableEq, Repr

/-- R52: the byte at the lower address supplies bits 15:8. -/
def wordOfBytes (hi lo : Byte) : Word := hi ++ lo

/-- The instruction at the head of a byte sequence, and the bytes after it. -/
def decodeBytes : List Byte → Except DecodeError (Instr × List Byte)
  | hi :: lo :: rest => .ok (decodeWord (wordOfBytes hi lo), rest)
  | [_] => .error .truncated
  | [] => .error .truncated

/-- A word of format NNN (R82, R83). -/
def packNnn (op : Nibble) (nnn : Addr) : Word := BitVec.ofNat 16 (op.val * 4096 + nnn.toNat)

/-- A word of format XNN or X. -/
def packXnn (op x : Nibble) (nn : Byte) : Word := BitVec.ofNat 16 (op.val * 4096 + x.val * 256 + nn.toNat)

/-- A word of format XYN or XY. -/
def packXyn (op x y n : Nibble) : Word := BitVec.ofNat 16 (op.val * 4096 + x.val * 256 + y.val * 16 + n.val)

/-- The word of an instruction, from the patterns of R86. -/
def encode : Instr → Word
  | .cls => 0x00E0
  | .ret => 0x00EE
  | .jp nnn => packNnn 0x1 nnn
  | .call nnn => packNnn 0x2 nnn
  | .seImm x nn => packXnn 0x3 x nn
  | .sneImm x nn => packXnn 0x4 x nn
  | .seReg x y => packXyn 0x5 x y 0
  | .ldImm x nn => packXnn 0x6 x nn
  | .addImm x nn => packXnn 0x7 x nn
  | .ldReg x y => packXyn 0x8 x y 0
  | .orReg x y => packXyn 0x8 x y 1
  | .andReg x y => packXyn 0x8 x y 2
  | .xorReg x y => packXyn 0x8 x y 3
  | .addReg x y => packXyn 0x8 x y 4
  | .subReg x y => packXyn 0x8 x y 5
  | .ldI nnn => packNnn 0xA nnn
  | .rnd x nn => packXnn 0xC x nn
  | .drw x y n => packXyn 0xD x y n
  | .skp x => packXnn 0xE x 0x9E
  | .sknp x => packXnn 0xE x 0xA1
  | .ldVxDt x => packXnn 0xF x 0x07
  | .ldDtVx x => packXnn 0xF x 0x15
  | .ldStVx x => packXnn 0xF x 0x18
  | .addI x => packXnn 0xF x 0x1E
  | .ldF x => packXnn 0xF x 0x29
  | .ldB x => packXnn 0xF x 0x33
  | .storeRegs x => packXnn 0xF x 0x55
  | .loadRegs x => packXnn 0xF x 0x65
  | .noop w => w

/-- The two bytes of an instruction as memory holds them, high byte first (R52, R80). -/
def encodeBytes (i : Instr) : List Byte := [(encode i).extractLsb 15 8, (encode i).extractLsb 7 0]

/-- The instruction the decoder reads from a word numbered as the opcode table numbers it: the word's two bytes, high
byte first, go to `decodeBytes`. -/
def decodeTableWord (nbits w : Nat) : Option Instr :=
  let word : Word := BitVec.ofNat 16 (w % 2 ^ nbits)
  match decodeBytes [word.extractLsb 15 8, word.extractLsb 7 0] with
  | .ok (i, _) => some i
  | .error _ => none

end Sys2Proof
end

