-- ==== Sys2Proof/Machine/Fetch.lean ====
section
/-! DEFINITION. Fetching an instruction's bytes (30_encoding.md R81), and placing a word where the next step fetches. -/

namespace Sys2Proof.Machine

/-- Whether the two bytes at PC are inside the array (20_memory.md R56). -/
def State.canFetch (s : State) : Bool := s.pc.toNat ≤ 0xFFE

/-- `MemRead(PC, 2)`: `mem[PC] ++ mem[PC+1]`, at any PC, odd or even (20_memory.md R52, R54). -/
def State.fetchWord (s : State) : Word := wordOfBytes (s.readByte s.pc.toNat) (s.readByte (s.pc.toNat + 1))

/-- `s` able to fetch: without a fault, and with PC at PROGRAM_BASE where it could not be fetched at. -/
def State.readyToFetch (s : State) : State :=
  { s with
    fault := FaultReg.clear
    pc := if s.canFetch then s.pc else BitVec.ofNat 16 programBase }

/-- `s` ready to fetch, with `word` in the two bytes the next step fetches. -/
def State.placeWord (s : State) (word : Word) : State :=
  s.readyToFetch.storeBytes s.readyToFetch.pc.toNat [word.extractLsb 15 8, word.extractLsb 7 0]

end Sys2Proof.Machine
end

