-- ==== Sys2Proof/Machine/Step.lean ====
section
/-! DEFINITION. `step()` (60_exceptions.md R230). -/

namespace Sys2Proof.Machine

/-- `step()`: nothing while faulted (R215); a fetch outside the array faults before PC is incremented (20_memory.md R56); else the
word at PC is read once and its instruction runs. -/
def step (s : State) : Host.Outcome State Fault Refusal :=
  if s.fault.valid then .next s
  else if s.canFetch then exec (decodeWord s.fetchWord) s
  else raiseFault .boundsFetch s

/-- `s` with the word `w`, numbered as the opcode table numbers it, where the next step fetches. In a state that fetches nothing
(faulted, or with PC > 0xFFE) the fault is cleared and PC set to PROGRAM_BASE as well (log entry 6). -/
def State.withFetchWord (s : State) (nbits w : Nat) : State := s.placeWord (BitVec.ofNat 16 (w % 2 ^ nbits))

end Sys2Proof.Machine
end

