-- ==== Sys2Proof/Machine/Scheduler.lean ====
section
/-! DEFINITION. The timer countdown engine and the cycle scheduler (60_exceptions.md R220-R239). -/

namespace Sys2Proof.Machine

/-- Goes on from a next state, and stops where the first outcome stops. -/
def bindOutcome {α β : Type} (o : Host.Outcome α Fault Refusal) (k : α → Host.Outcome β Fault Refusal) :
    Host.Outcome β Fault Refusal :=
  match o with
  | .next a => k a
  | .fault r => .fault r
  | .refused r => .refused r

/-- One timer's countdown: by one, never below zero (R220). -/
def countDown (b : Byte) : Byte := if b.toNat > 0 then b - 1 else b

/-- `timer_decrement()` (R220): both timers in the same operation. -/
def State.timerDecrement (s : State) : State := { s with dt := countDown s.dt, st := countDown s.st }

/-- One write of the Input Adapter: `setKey(k, b)` (R241). -/
structure KeyWrite where
  k : Nibble
  b : Bool
deriving DecidableEq, Repr

/-- `key[k] <- b` (R241). -/
def State.setKey (s : State) (w : KeyWrite) : State := { s with key := s.key.set w.k w.b }

/-- The writes of the Input Adapter that land at one point between two steps, in order. -/
def State.setKeys (s : State) (ws : List KeyWrite) : State := ws.foldl State.setKey s

/-- `floor(ips * elapsed / 1000)` (R232). -/
def cyclesToRun (ips : Nat) (elapsed : Time) : Nat := ((ips : Rat) * elapsed / 1000).floor.toNat

/-- How many steps an unpaused tick runs (R232). -/
def tickSteps (ips : Nat) (elapsed : Time) : Nat := max 1 (cyclesToRun ips elapsed)

/-- `n` steps, with the first list of key writes landing after the first step, the second after the second step, and so on;
the lists past the last step land after it, one after another (R241). -/
def runSteps : Nat → List (List KeyWrite) → State → StepOutcome
  | 0, writes, s => .next (s.setKeys writes.flatten)
  | n + 1, writes, s => bindOutcome (step s) fun t => runSteps n writes.tail (t.setKeys (writes.headD []))

/-- The step loop of a tick: no steps while paused (R234), else `max(1, cycles)` (R233). -/
def tickLoop (elapsed : Time) (writes : List (List KeyWrite)) (s : State) : StepOutcome :=
  runSteps (if s.paused then 0 else tickSteps s.ips elapsed) writes s

/-- The timer branch of a tick (R233): at most one decrement, whatever `paused` and `fault` are (R221), and the baseline moves
with it. -/
def timerBranch (now elapsed : Time) (s : State) : State :=
  if 60 * elapsed ≥ 1000 then { s.timerDecrement with baseline := now } else s

/-- `tick(now)` (R233), with the key writes that land inside it. A time below the baseline is outside the spec (R244) and is
refused by name. -/
def tick (now : Time) (writes : List (List KeyWrite)) (s : State) : StepOutcome :=
  if now < s.baseline then .refused .timeDecreased
  else if s.running then
    bindOutcome (tickLoop (now - s.baseline) writes s) fun t => .next (timerBranch now (now - s.baseline) t)
  else .next (s.setKeys writes.flatten)

end Sys2Proof.Machine
end

