-- ==== Sys2Proof/Machine/Ports.lean ====
section
/-! DEFINITION. The ports the host drives the block through (60_exceptions.md R240-R244, 70_reset_and_hazards.md R261-R264). -/

namespace Sys2Proof.Machine

/-- One call of a port of R240. A tick carries the key writes that land inside it (R241). The `rng` input is
`Config.drawByte`. -/
inductive HostCall where
  | reset
  | loadProgram (bytes : List Byte)
  | start (now : Time)
  | stop
  | setPaused (b : Bool)
  | setIps (v : Nat)
  | tick (now : Time) (writes : List (List KeyWrite))
  | step
  | setKey (k : Nibble) (b : Bool)
  | readDisplay
  | inspect
deriving DecidableEq, Repr

/-- What a port answers (R240). -/
inductive PortResult where
  | ok
  /-- `loadProgram` of an oversize image (R263). -/
  | rejected
  /-- `step` answers `Fault(cause)` (R230). -/
  | fault (cause : BitVec 3)
  /-- The display port (R242). -/
  | display (d : Display)
  /-- `inspect` (R246). -/
  | state (s : State)
deriving DecidableEq, Repr

/-- `loadProgram(bytes)` of an image that fits (R262): memory from PROGRAM_BASE up is zeroed, the image is copied there, and PC
is set. Nothing else changes (D27). -/
def State.withProgram (s : State) (bytes : List Byte) : State :=
  { s with
    mem := Memory.writeBytes s.params.font (s.mem.clearFrom programBase) programBase bytes
    pc := BitVec.ofNat 16 programBase }

/-- `loadProgram(bytes)` (R262): an oversize image is rejected whole (R263). -/
def loadProgram (bytes : List Byte) (s : State) : State × PortResult :=
  if bytes.length > maxProgramLen then (s, .rejected) else (s.withProgram bytes, .ok)

/-- `start(now)` (R235). A time below the baseline is below a time passed before (R244) and is refused by name. -/
def start (now : Time) (s : State) : StepOutcome :=
  if now < s.baseline then .refused .timeDecreased else .next { s with running := true, baseline := now }

/-- What `step()` answers its caller, from the state it left: `Fault(fault.cause)` when the fault register is valid, else `Ok`
(R215, R230). -/
def stepResult (t : State) : PortResult := if t.fault.valid then .fault t.fault.cause else .ok

/-- One port call, with the state it leaves and what it answers. -/
def hostCall (c : HostCall) (s : State) : Host.Outcome (State × PortResult) Fault Refusal :=
  match c with
  | .reset => .next (s.afterReset, .ok)
  | .loadProgram bytes => .next (loadProgram bytes s)
  | .start now => bindOutcome (start now s) fun t => .next (t, .ok)
  | .stop => .next ({ s with running := false }, .ok)
  | .setPaused b => .next ({ s with paused := b }, .ok)
  | .setIps v => .next ({ s with ips := v }, .ok)
  | .tick now writes => bindOutcome (tick now writes s) fun t => .next (t, .ok)
  | .step => bindOutcome (step s) fun t => .next (t, stepResult t)
  | .setKey k b => .next (s.setKey { k := k, b := b }, .ok)
  | .readDisplay => .next (s, .display s.disp)
  | .inspect => .next (s, .state s)

/-- The time a call passes, where it passes one. -/
def HostCall.time : HostCall → Option Time
  | .start now => some now
  | .tick now _ => some now
  | .reset | .loadProgram _ | .stop | .setPaused _ | .setIps _ | .step | .setKey _ _ | .readDisplay | .inspect => none

/-- A sequence of host calls. `last` is the latest time passed so far, and a time below it is refused: the times the host passes
never decrease (R244). -/
def runCalls : Time → List HostCall → State → StepOutcome
  | _, [], s => .next s
  | last, c :: calls, s =>
    if c.time.getD last < last then .refused .timeDecreased
    else bindOutcome (hostCall c s) fun p => runCalls (c.time.getD last) calls p.1

/-- The boot sequence of a fresh run (R264): reset, load, start. -/
def bootCalls (image : List Byte) (now : Time) : List HostCall := [.reset, .loadProgram image, .start now]

end Sys2Proof.Machine
end

