-- ==== Sys2Proof/Safety.lean ====
section
/-! DEFINITION. The terms claims use: the machine's invariant, the end of a run, when a step faults, and frames. -/

namespace Sys2Proof.Machine

/-- What holds in every state the rules reach (10_state.md R41), with the facts the model adds about its own representation:
memory in canonical form, legal parameters, a time that is not negative. V, DT and ST are in 0..255 by their type. -/
structure Inv (s : State) : Prop where
  params_legal : s.params.legal
  index_le : s.i.toNat ≤ 0xFFF
  stack_le : ∀ d ∈ s.params.stackDepth, s.stack.length ≤ d
  pc_le : s.pc.toNat ≤ 0x1002
  entries_le : ∀ a ∈ s.stack, a.toNat ≤ 0x1000
  mem_wf : Memory.wf s.params.font s.mem
  fault_valid : s.fault.valid = true → 1 ≤ s.fault.cause.toNat ∧ s.fault.cause.toNat ≤ 5 ∧ s.fault.pc.toNat ≤ 0x1002
  fault_clear : s.fault.valid = false → s.fault = FaultReg.clear
  baseline_nonneg : 0 ≤ s.baseline

/-- `n` steps, one after another (60_exceptions.md R230). -/
def runFor : Nat → State → StepOutcome
  | 0, s => .next s
  | n + 1, s => bindOutcome (step s) (runFor n)

/-- A self-jump at PC: PC ≤ 0xFFE and the word there is `0x1000 OR PC` (70_reset_and_hazards.md R274). -/
def State.atSelfJump (s : State) : Bool := s.canFetch && s.fetchWord == (0x1000 ||| s.pc)

/-- The end of a run for claims, the step count apart (R274, 92_eei_decisions.md D32). -/
def State.runEnded (s : State) : Bool := s.fault.valid || s.atSelfJump

/-- The condition column of the fault table for one instruction (60_exceptions.md R212). -/
def InstrFaults (s : State) (i : Instr) : FaultCause → Prop
  | .boundsFetch => False
  | .boundsData =>
    (∃ x y n : Nibble, i = .drw x y n ∧ 1 ≤ n.val ∧ s.i.toNat + n.val - 1 > 0xFFF) ∨
    (∃ x, i = .ldB x ∧ s.i.toNat + 2 > 0xFFF) ∨
    (∃ x : Nibble, (i = .storeRegs x ∨ i = .loadRegs x) ∧ s.i.toNat + x.val > 0xFFF)
  | .stackUnderflow => i = .ret ∧ s.stack.length = 0
  | .stackOverflow => ∃ nnn, i = .call nnn ∧ s.params.stackDepth = some s.stack.length
  | .keyIndex => ∃ x, (i = .skp x ∨ i = .sknp x) ∧ (s.getV x).toNat > 0xF

/-- When the step that starts in `s` raises the cause (R212, R214): the fetch is checked first, then the decoded instruction. -/
def FaultDue (s : State) (c : FaultCause) : Prop :=
  (c = .boundsFetch ∧ s.pc.toNat > 0xFFE) ∨ (s.pc.toNat ≤ 0xFFE ∧ InstrFaults s (decodeWord s.fetchWord) c)

/-- The pieces of state a frame speaks of. -/
inductive Piece where
  | params | regs | index | pc | stack | dt | st | mem | disp | key | paused | running | ips | baseline | fault | draws
deriving DecidableEq, Repr

/-- One piece of state is the same in `t` as in `s`. Memory is compared byte by byte, through the read. -/
def Unchanged (s t : State) : Piece → Prop
  | .params => t.params = s.params
  | .regs => ∀ x, t.getV x = s.getV x
  | .index => t.i = s.i
  | .pc => t.pc = s.pc
  | .stack => t.stack = s.stack
  | .dt => t.dt = s.dt
  | .st => t.st = s.st
  | .mem => ∀ a, t.readByte a = s.readByte a
  | .disp => t.disp = s.disp
  | .key => t.key = s.key
  | .paused => t.paused = s.paused
  | .running => t.running = s.running
  | .ips => t.ips = s.ips
  | .baseline => t.baseline = s.baseline
  | .fault => t.fault = s.fault
  | .draws => t.draws = s.draws

/-- The frame: every piece but those listed is unchanged. -/
def KeepsAllBut (changed : List Piece) (s t : State) : Prop := ∀ p, p ∉ changed → Unchanged s t p

/-- An instruction that writes the one register `x` and goes to the next instruction. -/
def WritesRegister (x : Nibble) (b : Byte) (s t : State) : Prop :=
  t.getV x = b ∧ (∀ j, j ≠ x → t.getV j = s.getV j) ∧ t.pc = s.pc + 2 ∧ KeepsAllBut [.regs, .pc] s t

/-- An instruction that may skip the next word and changes nothing else (40_flow.md R106). -/
def SkipsWhen (c : Prop) (s t : State) : Prop :=
  (c → t.pc = s.pc + 4) ∧ (¬c → t.pc = s.pc + 2) ∧ KeepsAllBut [.pc] s t

/-- The words of a row of the opcode map are exactly those the decoder reads as `read`. -/
def RowReadsAs (mask pattern : Word) (read : Word → Instr) : Prop :=
  ∀ w : Word, w &&& mask = pattern ↔ decodeWord w = read w

/-- The instruction is one of the five skips, and its condition holds (40_flow.md R103-R106; 44_input_timers.md R180, R181). -/
def SkipTaken (i : Instr) (s : State) : Prop :=
  (∃ x nn, i = .seImm x nn ∧ s.getV x = nn) ∨ (∃ x nn, i = .sneImm x nn ∧ s.getV x ≠ nn) ∨
  (∃ x y, i = .seReg x y ∧ s.getV x = s.getV y) ∨
  (∃ x, i = .skp x ∧ s.key[(s.getV x).toNat]? = some true) ∨
  (∃ x, i = .sknp x ∧ s.key[(s.getV x).toNat]? = some false)

/-- The step that started in `s` raised the cause with this code: the fault register says so, and nothing else differs
(60_exceptions.md R213). -/
def FaultEntered (code : BitVec 3) (s t : State) : Prop :=
  t = { s with fault := { valid := true, cause := code, pc := s.pc } }

/-- The sprite mask of 43_display.md R165: some row `k` of the sprite has, in column `j` counted from its most significant bit, a
1 bit that lands on cell (c, r) after the wrap. -/
def SpriteCovers (ox oy : Nat) (rows : List Byte) (c : Fin 64) (r : Fin 32) : Prop :=
  ∃ k j, ∃ h : k < rows.length, j < 8 ∧ rows[k].getLsbD (7 - j) = true ∧ c.val = (ox + j) % 64 ∧ r.val = (oy + k) % 32

/-- The buffer `e` is `d` XOR the sprite mask (R165). -/
def XoredWith (covers : Fin 64 → Fin 32 → Prop) (d e : Display) : Prop :=
  ∀ c r, (covers c r → e.get c r = !d.get c r) ∧ (¬covers c r → e.get c r = d.get c r)

/-- The draw collides: the sprite mask meets a cell that is on (R164, R165). -/
def Collides (covers : Fin 64 → Fin 32 → Prop) (d : Display) : Prop := ∃ c r, covers c r ∧ d.get c r = true

/-- Memory at `a` holds `bytes`. -/
def HoldsBytes (s : State) (a : Nat) (bytes : List Byte) : Prop :=
  ∀ k, (h : k < bytes.length) → s.readByte (a + k) = bytes[k]

/-- Every byte outside the `n` bytes at `a` is the same in `t` as in `s`. -/
def KeepsMemoryOutside (a n : Nat) (s t : State) : Prop :=
  ∀ b, (b < a ∨ a + n ≤ b) → t.readByte b = s.readByte b

/-- What a sequence of key writes leaves (60_exceptions.md R241): a key that no write names keeps its level, and a key that is named has
the level of the last write to it. -/
def KeysWritten (writes : List KeyWrite) (s t : State) : Prop :=
  (∀ j : Nibble, (∀ w ∈ writes, w.k ≠ j) → t.key[j] = s.key[j]) ∧
  ∀ (earlier : List KeyWrite) (w : KeyWrite) (later : List KeyWrite), writes = earlier ++ w :: later → (∀ u ∈ later, u.k ≠ w.k) →
    t.key[w.k] = w.b

end Sys2Proof.Machine
end

