-- ==== Sys2Proof/Certificates/Slice0/Obligations.lean ====
section
/-! DEFINITION. The statements for the provers. Each docstring names the rules it rests on. -/

open Sys2Proof Sys2Proof.Machine

/-! ## Encoding and decoding -/

/-- For every well-formed instruction, decoding its word, or its bytes with anything after them, gives it back
(30_encoding.md R84-R86). -/
def Obligations.DecodeOfEncodeGivesInstructionBack : Prop :=
  ∀ i : Instr, i.wellFormed = true →
    decodeWord (encode i) = i ∧ ∀ rest, decodeBytes (encodeBytes i ++ rest) = .ok (i, rest)

/-- Every one of the 65536 words decodes to a well-formed instruction (30_encoding.md R92), and no bit of a word is dropped: encoding what
was decoded gives the word back. For the unassigned words, which all are the same no-op (45_unassigned.md R200), the second half is the
model's choice that the no-op carries its word (DESIGN CHOICE, log entry 9). -/
def Obligations.EveryWordDecodesAndEncodesBack : Prop :=
  ∀ w : Word, (decodeWord w).wellFormed = true ∧ encode (decodeWord w) = w

/-- R85 with the masks of R86: for each of the 28 rows, the words that the decoder reads as the row's instruction, with the fields
of R10, are exactly those with `(w AND mask) = match`; a word that matches no row is a no-op. -/
def Obligations.OpcodeMapIsReadByMaskAndMatch : Prop :=
  (RowReadsAs 0xFFFF 0x00E0 (fun _ => .cls) ∧ RowReadsAs 0xFFFF 0x00EE (fun _ => .ret) ∧
    RowReadsAs 0xF000 0x1000 (fun w => .jp (nnnField w)) ∧ RowReadsAs 0xF000 0x2000 (fun w => .call (nnnField w)) ∧
    RowReadsAs 0xF000 0x3000 (fun w => .seImm (xField w) (nnField w)) ∧
    RowReadsAs 0xF000 0x4000 (fun w => .sneImm (xField w) (nnField w)) ∧
    RowReadsAs 0xF00F 0x5000 (fun w => .seReg (xField w) (yField w)) ∧
    RowReadsAs 0xF000 0x6000 (fun w => .ldImm (xField w) (nnField w)) ∧
    RowReadsAs 0xF000 0x7000 (fun w => .addImm (xField w) (nnField w))) ∧
  (RowReadsAs 0xF00F 0x8000 (fun w => .ldReg (xField w) (yField w)) ∧
    RowReadsAs 0xF00F 0x8001 (fun w => .orReg (xField w) (yField w)) ∧
    RowReadsAs 0xF00F 0x8002 (fun w => .andReg (xField w) (yField w)) ∧
    RowReadsAs 0xF00F 0x8003 (fun w => .xorReg (xField w) (yField w)) ∧
    RowReadsAs 0xF00F 0x8004 (fun w => .addReg (xField w) (yField w)) ∧
    RowReadsAs 0xF00F 0x8005 (fun w => .subReg (xField w) (yField w)) ∧
    RowReadsAs 0xF000 0xA000 (fun w => .ldI (nnnField w)) ∧
    RowReadsAs 0xF000 0xC000 (fun w => .rnd (xField w) (nnField w)) ∧
    RowReadsAs 0xF000 0xD000 (fun w => .drw (xField w) (yField w) (nField w))) ∧
  (RowReadsAs 0xF0FF 0xE09E (fun w => .skp (xField w)) ∧ RowReadsAs 0xF0FF 0xE0A1 (fun w => .sknp (xField w)) ∧
    RowReadsAs 0xF0FF 0xF007 (fun w => .ldVxDt (xField w)) ∧ RowReadsAs 0xF0FF 0xF015 (fun w => .ldDtVx (xField w)) ∧
    RowReadsAs 0xF0FF 0xF018 (fun w => .ldStVx (xField w)) ∧ RowReadsAs 0xF0FF 0xF01E (fun w => .addI (xField w)) ∧
    RowReadsAs 0xF0FF 0xF029 (fun w => .ldF (xField w)) ∧ RowReadsAs 0xF0FF 0xF033 (fun w => .ldB (xField w)) ∧
    RowReadsAs 0xF0FF 0xF055 (fun w => .storeRegs (xField w)) ∧
    RowReadsAs 0xF0FF 0xF065 (fun w => .loadRegs (xField w))) ∧
  ∀ w : Word, (∀ r ∈ opcodeRows, w &&& r.mask ≠ r.pattern) → decodeWord w = .noop w

/-- R87: two different rows differ in a bit that both masks fix, so at most one row matches a word, and matching the rows in
any order finds the same one. -/
def Obligations.OpcodeRowsAreDisjoint : Prop :=
  (∀ r ∈ opcodeRows, ∀ q ∈ opcodeRows, r ≠ q → (r.mask &&& q.mask) &&& (r.pattern ^^^ q.pattern) ≠ 0) ∧
  (∀ w : Word, ∀ r ∈ opcodeRows, ∀ q ∈ opcodeRows, r.selects w = true → q.selects w = true → r = q) ∧
  (∀ rows : List OpcodeRow, rows.Perm opcodeRows → ∀ w : Word, rows.find? (·.selects w) = opcodeRows.find? (·.selects w)) ∧
  ∀ w : Word, decodeWord w = .noop w ↔ ∀ r ∈ opcodeRows, r.selects w = false

/-- The regions of the unassigned words (30_encoding.md R88, without its counts). -/
def Obligations.UnassignedWordsLieInTheirRegions : Prop :=
  ∀ w : Word, isUnassigned w = true ↔
    (opField w = 0x0 ∧ w ≠ 0x00E0 ∧ w ≠ 0x00EE) ∨ (opField w = 0x5 ∧ nField w ≠ 0) ∨ (opField w = 0x8 ∧ 6 ≤ (nField w).val) ∨
    opField w = 0x9 ∨ opField w = 0xB ∨ (opField w = 0xE ∧ nnField w ∉ [(0x9E : Byte), 0xA1]) ∨
    (opField w = 0xF ∧ nnField w ∉ [(0x07 : Byte), 0x15, 0x18, 0x1E, 0x29, 0x33, 0x55, 0x65])

/-- Words written out from the patterns of R86 decode to the instructions they stand for. -/
def Obligations.WordsWrittenFromTheMapDecode : Prop :=
  decodeWord 0x00E0 = .cls ∧ decodeWord 0x00EE = .ret ∧ decodeWord 0x1234 = .jp 0x234 ∧ decodeWord 0x3310 = .seImm 3 0x10 ∧
  decodeWord 0x5120 = .seReg 1 2 ∧ decodeWord 0x5121 = .noop 0x5121 ∧ decodeWord 0x80F5 = .subReg 0 15 ∧
  decodeWord 0xA123 = .ldI 0x123 ∧ decodeWord 0xC30F = .rnd 3 0x0F ∧ decodeWord 0xD0A5 = .drw 0 10 5 ∧
  decodeWord 0xE59E = .skp 5 ∧ decodeWord 0xF265 = .loadRegs 2 ∧ decodeWord 0xF00A = .noop 0xF00A

/-! ## The step and its faults -/

/-- Without a fault and with PC inside the array, the step is the meaning of the instruction that the two bytes at PC decode to
(30_encoding.md R81, 60_exceptions.md R230). The meaning itself makes the fetch increment. -/
def Obligations.StepRunsTheInstructionAtPc : Prop :=
  ∀ (s : State) (i : Instr), s.fault.valid = false → s.pc.toNat ≤ 0xFFE →
    decodeBytes [s.readByte s.pc.toNat, s.readByte (s.pc.toNat + 1)] = .ok (i, []) → step s = exec i s

/-- The model's way of placing a word (log entry 6): after `withFetchWord` the very next step runs that word, from any state. -/
def Obligations.StepRunsThePlacedWord : Prop :=
  ∀ (s : State) (w : Word), step (s.withFetchWord 16 w.toNat) = exec (decodeWord w) (s.withFetchWord 16 w.toNat)

/-- Every step from every state answers a next state: no word is illegal and no fault stops the machine (30_encoding.md R89, R92;
60_exceptions.md R213, R215; log entry 4). -/
def Obligations.EveryStepAnswersANextState : Prop := ∀ s : State, ∃ t, step s = .next t

/-- R212: outside a fault, a step enters a cause, with its code and the PC at its start and nothing else changed, exactly under that
cause's condition in the table. The port `step()` then answers `Fault` with that code, and where no cause is due it answers `Ok` and
leaves the fault register (60_exceptions.md R230). -/
def Obligations.FaultsAreRaisedExactlyWhenDue : Prop :=
  (causeCode .boundsFetch = 1 ∧ causeCode .boundsData = 2 ∧ causeCode .stackUnderflow = 3 ∧ causeCode .stackOverflow = 4 ∧
    causeCode .keyIndex = 5) ∧
  ∀ (s : State) (c : FaultCause), s.fault.valid = false →
    (FaultDue s c ↔ ∃ t, step s = .next t ∧ FaultEntered (causeCode c) s t) ∧
    (FaultDue s c → ∃ t, hostCall .step s = .next (t, .fault (causeCode c)) ∧ FaultEntered (causeCode c) s t) ∧
    ((∀ d, ¬FaultDue s d) → ∃ t, step s = .next t ∧ hostCall .step s = .next (t, .ok) ∧ t.fault = s.fault)

/-- R213: a step that raises a fault commits none of its effects, and then sets the fault register. -/
def Obligations.AFaultingStepCommitsNothing : Prop :=
  ∀ s t : State, s.fault.valid = false → step s = .next t → t.fault.valid = true →
    ∃ c : FaultCause, FaultEntered (causeCode c) s t

/-- A step raises at most one fault, and the fetch is checked before the decoded instruction (60_exceptions.md R214). -/
def Obligations.AStepRaisesAtMostOneFault : Prop :=
  (∀ (s : State) (c d : FaultCause), FaultDue s c → FaultDue s d → c = d) ∧
  ∀ (s : State), s.fault.valid = false → s.pc.toNat > 0xFFE → ∃ t, step s = .next t ∧ FaultEntered 1 s t

/-- R215: while the fault is valid, `step()` changes nothing and returns the fault; a running tick changes nothing but the timers,
the baseline and the keys that the writes inside it name, and its timers count; no port but `reset()` changes the fault register, and `reset()`
clears it. -/
def Obligations.AFaultIsStickyUntilReset : Prop :=
  ∀ s : State, s.fault.valid = true →
    step s = .next s ∧ hostCall .step s = .next (s, .fault s.fault.cause) ∧
    (∀ now writes, s.running = true → s.baseline ≤ now → ∃ t, tick now writes s = .next t ∧
      KeepsAllBut [.key, .dt, .st, .baseline] s t ∧ KeysWritten writes.flatten s t ∧
      (60 * (now - s.baseline) ≥ 1000 →
        t.dt.toNat = s.dt.toNat - 1 ∧ t.st.toNat = s.st.toNat - 1 ∧ t.baseline = now ∧ t.running = true) ∧
      (60 * (now - s.baseline) < 1000 → t.dt = s.dt ∧ t.st = s.st ∧ t.baseline = s.baseline ∧ t.running = true)) ∧
    (∃ t, hostCall .reset s = .next (t, .ok) ∧ t.fault = { valid := false, cause := 0, pc := 0 }) ∧
    ∀ c t r, c ≠ .reset → hostCall c s = .next (t, r) → t.fault = s.fault

/-! ## Register loads and arithmetic (41_alu.md) -/

/-- R120, LD Vx, nn: its words, its result in V[x], and its frame. -/
def Obligations.LoadImmediateWritesVx : Prop :=
  RowReadsAs 0xF000 0x6000 (fun w => .ldImm (xField w) (nnField w)) ∧
  ∀ x nn s, ∃ t, exec (.ldImm x nn) s = .next t ∧ WritesRegister x nn s t

/-- R121, ADD Vx, nn: the sum mod 256, and no flag. -/
def Obligations.AddImmediateWrapsWithoutFlag : Prop :=
  RowReadsAs 0xF000 0x7000 (fun w => .addImm (xField w) (nnField w)) ∧
  ∀ x nn s, ∃ t, exec (.addImm x nn) s = .next t ∧
    WritesRegister x (BitVec.ofNat 8 (((s.getV x).toNat + nn.toNat) % 256)) s t

/-- R122, LD Vx, Vy. -/
def Obligations.CopyRegisterWritesVx : Prop :=
  RowReadsAs 0xF00F 0x8000 (fun w => .ldReg (xField w) (yField w)) ∧
  ∀ x y s, ∃ t, exec (.ldReg x y) s = .next t ∧ WritesRegister x (s.getV y) s t

/-- R123, R124, R125, OR, AND and XOR, bit by bit: VF is not written unless it is V[x]. -/
def Obligations.LogicOperationsWriteVxAlone : Prop :=
  RowReadsAs 0xF00F 0x8001 (fun w => .orReg (xField w) (yField w)) ∧
  RowReadsAs 0xF00F 0x8002 (fun w => .andReg (xField w) (yField w)) ∧
  RowReadsAs 0xF00F 0x8003 (fun w => .xorReg (xField w) (yField w)) ∧
  ∀ x y s,
    (∃ t b, exec (.orReg x y) s = .next t ∧ WritesRegister x b s t ∧
      ∀ k < 8, b.getLsbD k = ((s.getV x).getLsbD k || (s.getV y).getLsbD k)) ∧
    (∃ t b, exec (.andReg x y) s = .next t ∧ WritesRegister x b s t ∧
      ∀ k < 8, b.getLsbD k = ((s.getV x).getLsbD k && (s.getV y).getLsbD k)) ∧
    ∃ t b, exec (.xorReg x y) s = .next t ∧ WritesRegister x b s t ∧
      ∀ k < 8, b.getLsbD k = ((s.getV x).getLsbD k ^^ (s.getV y).getLsbD k)

/-- R126, ADD Vx, Vy: VF is 1 exactly when the untruncated sum of the old values exceeds 255, and V[x], written last, is the sum
mod 256. -/
def Obligations.AddRegistersSetsCarry : Prop :=
  RowReadsAs 0xF00F 0x8004 (fun w => .addReg (xField w) (yField w)) ∧
  ∀ x y s, ∃ t, exec (.addReg x y) s = .next t ∧
    (t.getV x).toNat = ((s.getV x).toNat + (s.getV y).toNat) % 256 ∧
    (x ≠ vf → ((s.getV x).toNat + (s.getV y).toNat > 255 → t.getV vf = 1) ∧
      ((s.getV x).toNat + (s.getV y).toNat ≤ 255 → t.getV vf = 0)) ∧
    (∀ j, j ≠ x → j ≠ vf → t.getV j = s.getV j) ∧ t.pc = s.pc + 2 ∧ KeepsAllBut [.regs, .pc] s t

/-- R127, SUB Vx, Vy, in its four cases. With x0, y0 and f0 the old values and f the strict unsigned greater-than of x0 and y0: the
subtraction reads the registers after VF was written. -/
def Obligations.SubtractSetsGreaterFlagFirst : Prop :=
  RowReadsAs 0xF00F 0x8005 (fun w => .subReg (xField w) (yField w)) ∧
  ∀ (x y : Nibble) (s : State) (f : Byte),
    ((s.getV x).toNat > (s.getV y).toNat → f = 1) → ((s.getV x).toNat ≤ (s.getV y).toNat → f = 0) →
    ∃ t, exec (.subReg x y) s = .next t ∧
      (x ≠ vf → y ≠ vf →
        t.getV vf = f ∧ (t.getV x).toNat = ((s.getV x).toNat + 256 - (s.getV y).toNat) % 256) ∧
      (x ≠ vf → y = vf → t.getV vf = f ∧ (t.getV x).toNat = ((s.getV x).toNat + 256 - f.toNat) % 256) ∧
      (x = vf → y ≠ vf → (t.getV vf).toNat = (f.toNat + 256 - (s.getV y).toNat) % 256) ∧
      (x = vf → y = vf → t.getV vf = 0) ∧
      (∀ j, j ≠ x → j ≠ vf → t.getV j = s.getV j) ∧ t.pc = s.pc + 2 ∧ KeepsAllBut [.regs, .pc] s t

/-- RND Vx, nn (41_alu.md R128). The random byte is the model's free value, drawn afresh (log entry 3): the statement holds whatever
it is. -/
def Obligations.RandomByteIsMasked : Prop :=
  RowReadsAs 0xF000 0xC000 (fun w => .rnd (xField w) (nnField w)) ∧
  ∀ x nn s, ∃ t, exec (.rnd x nn) s = .next t ∧ t.getV x = Config.drawByte s.draws &&& nn ∧ t.draws = s.draws + 1 ∧
    (∀ k < 8, nn.getLsbD k = false → (t.getV x).getLsbD k = false) ∧
    (∀ j, j ≠ x → t.getV j = s.getV j) ∧ t.pc = s.pc + 2 ∧ KeepsAllBut [.regs, .pc, .draws] s t

/-! ## Control flow (40_flow.md) -/

/-- R100, RET: the last return address as it is, or STACK_UNDERFLOW on an empty stack. -/
def Obligations.ReturnPopsOrUnderflows : Prop :=
  RowReadsAs 0xFFFF 0x00EE (fun _ => .ret) ∧
  (∀ s rest a, s.stack = rest ++ [a] → ∃ t, exec .ret s = .next t ∧ t.pc = a ∧ t.stack = rest ∧
    KeepsAllBut [.pc, .stack] s t ∧
    (s.fault.valid = false → a.toNat > 0xFFE → ∃ u, step t = .next u ∧ FaultEntered 1 t u)) ∧
  ∀ s, s.stack = [] → ∃ t, exec .ret s = .next t ∧ FaultEntered 3 s t

/-- R101, JP nnn: PC is nnn, any 12-bit address; a jump to its own address changes nothing at all. -/
def Obligations.JumpGoesToNnn : Prop :=
  RowReadsAs 0xF000 0x1000 (fun w => .jp (nnnField w)) ∧
  ∀ nnn s, ∃ t, exec (.jp nnn) s = .next t ∧ t.pc.toNat = nnn.toNat ∧ KeepsAllBut [.pc] s t ∧
    (s.pc.toNat = nnn.toNat → t = s)

/-- CALL nnn (40_flow.md R102): the address after the CALL is pushed and PC is nnn, and a RET then comes back there; or
STACK_OVERFLOW when the stack holds STACK_DEPTH entries. -/
def Obligations.CallPushesOrOverflows : Prop :=
  RowReadsAs 0xF000 0x2000 (fun w => .call (nnnField w)) ∧
  (∀ nnn s, s.params.stackDepth ≠ some s.stack.length → ∃ t, exec (.call nnn) s = .next t ∧
    t.stack = s.stack ++ [s.pc + 2] ∧ t.pc.toNat = nnn.toNat ∧ KeepsAllBut [.pc, .stack] s t ∧
    ∃ u, exec .ret t = .next u ∧ u.pc = s.pc + 2 ∧ u.stack = s.stack ∧ KeepsAllBut [.pc] s u) ∧
  ∀ nnn s, s.params.stackDepth = some s.stack.length → ∃ t, exec (.call nnn) s = .next t ∧ FaultEntered 4 s t

/-- A CALL to its own address recurses until STACK_OVERFLOW: with a stack capped at `d` entries, the cap is reached and the step
after it faults (40_flow.md R102, 10_state.md R26). -/
def Obligations.CallToItselfFillsTheStack : Prop :=
  ∀ (s : State) (d : Nat), s.fault.valid = false → s.pc.toNat ≤ 0xFFE → s.fetchWord = 0x2000 ||| s.pc →
    s.params.stackDepth = some d → s.stack.length ≤ d →
    ∃ t u, runFor (d - s.stack.length) s = .next t ∧ t.stack = s.stack ++ List.replicate (d - s.stack.length) (s.pc + 2) ∧
      KeepsAllBut [.stack] s t ∧ step t = .next u ∧ FaultEntered 4 t u

/-- R103, R104, R105: the compare skips and their frames. -/
def Obligations.CompareSkipsSkipWhenTheyHold : Prop :=
  RowReadsAs 0xF000 0x3000 (fun w => .seImm (xField w) (nnField w)) ∧
  RowReadsAs 0xF000 0x4000 (fun w => .sneImm (xField w) (nnField w)) ∧
  RowReadsAs 0xF00F 0x5000 (fun w => .seReg (xField w) (yField w)) ∧
  ∀ (x y : Nibble) (nn : Byte) (s : State),
    (∃ t, exec (.seImm x nn) s = .next t ∧ SkipsWhen (s.getV x = nn) s t) ∧
    (∃ t, exec (.sneImm x nn) s = .next t ∧ SkipsWhen (s.getV x ≠ nn) s t) ∧
    ∃ t, exec (.seReg x y) s = .next t ∧ SkipsWhen (s.getV x = s.getV y) s t

/-- R106: a taken skip leaves PC at its address plus 4 whatever the word between holds, raises no fault itself, and from 0xFFB
up leaves a PC at which the next fetch faults (20_memory.md R56). -/
def Obligations.ATakenSkipPassesTwoBytes : Prop :=
  ∀ (i : Instr) (s : State), SkipTaken i s → s.pc.toNat ≤ 0xFFE →
    ∃ t, exec i s = .next t ∧ t.pc.toNat = s.pc.toNat + 4 ∧ KeepsAllBut [.pc] s t ∧
      (s.fault.valid = false → s.pc.toNat ≥ 0xFFB → ∃ u, step t = .next u ∧ FaultEntered 1 t u)

/-! ## Index register, loads and stores (42_index_memory.md) -/

/-- R140, LD I, nnn. -/
def Obligations.LoadIndexWritesNnn : Prop :=
  RowReadsAs 0xF000 0xA000 (fun w => .ldI (nnnField w)) ∧
  ∀ nnn s, ∃ t, exec (.ldI nnn) s = .next t ∧ t.i.toNat = nnn.toNat ∧ t.pc = s.pc + 2 ∧ KeepsAllBut [.index, .pc] s t

/-- R141, ADD I, Vx: the sum wraps at 12 bits, and no flag is written. -/
def Obligations.AddToIndexWrapsAt12Bits : Prop :=
  RowReadsAs 0xF0FF 0xF01E (fun w => .addI (xField w)) ∧
  ∀ x s, ∃ t, exec (.addI x) s = .next t ∧ t.i.toNat = (s.i.toNat + (s.getV x).toNat) % 4096 ∧ t.pc = s.pc + 2 ∧
    KeepsAllBut [.index, .pc] s t

/-- R142, LD F, Vx: the whole byte, not masked, and never above 0xFFF. -/
def Obligations.FontAddressUsesTheWholeByte : Prop :=
  RowReadsAs 0xF0FF 0xF029 (fun w => .ldF (xField w)) ∧
  ∀ x s, ∃ t, exec (.ldF x) s = .next t ∧ t.i.toNat = 0x050 + (s.getV x).toNat * 5 ∧ t.i.toNat ≤ 0xFFF ∧ t.pc = s.pc + 2 ∧
    KeepsAllBut [.index, .pc] s t

/-- R143, LD B, Vx: the three digits at I, I+1 and I+2 and no other byte, seen by the next fetch; or BOUNDS_DATA with nothing
written. -/
def Obligations.BcdStoreWritesThreeDigits : Prop :=
  RowReadsAs 0xF0FF 0xF033 (fun w => .ldB (xField w)) ∧
  (∀ x s, s.i.toNat + 2 ≤ 0xFFF → ∃ t, exec (.ldB x) s = .next t ∧
    (t.readByte s.i.toNat).toNat = (s.getV x).toNat / 100 ∧
    (t.readByte (s.i.toNat + 1)).toNat = (s.getV x).toNat / 10 % 10 ∧
    (t.readByte (s.i.toNat + 2)).toNat = (s.getV x).toNat % 10 ∧
    KeepsMemoryOutside s.i.toNat 3 s t ∧ t.pc = s.pc + 2 ∧ KeepsAllBut [.mem, .pc] s t ∧
    (s.i = s.pc + 2 →
      t.fetchWord = wordOfBytes (BitVec.ofNat 8 ((s.getV x).toNat / 100)) (BitVec.ofNat 8 ((s.getV x).toNat / 10 % 10)))) ∧
  ∀ x s, s.i.toNat + 2 > 0xFFF → ∃ t, exec (.ldB x) s = .next t ∧ FaultEntered 2 s t

/-- R144, LD [I], Vx: V0 to Vx at I to I+x and no other byte, with I unchanged; or BOUNDS_DATA with nothing written. -/
def Obligations.StoreRegistersWritesTheRange : Prop :=
  RowReadsAs 0xF0FF 0xF055 (fun w => .storeRegs (xField w)) ∧
  (∀ x s, s.i.toNat + x.val ≤ 0xFFF → ∃ t, exec (.storeRegs x) s = .next t ∧
    (∀ k : Nibble, k.val ≤ x.val → t.readByte (s.i.toNat + k.val) = s.getV k) ∧
    KeepsMemoryOutside s.i.toNat (x.val + 1) s t ∧ t.pc = s.pc + 2 ∧ KeepsAllBut [.mem, .pc] s t) ∧
  ∀ x s, s.i.toNat + x.val > 0xFFF → ∃ t, exec (.storeRegs x) s = .next t ∧ FaultEntered 2 s t

/-- R145, LD Vx, [I]: V0 to Vx from I to I+x, the other registers and I unchanged; or BOUNDS_DATA with no register written. -/
def Obligations.LoadRegistersReadsTheRange : Prop :=
  RowReadsAs 0xF0FF 0xF065 (fun w => .loadRegs (xField w)) ∧
  (∀ x s, s.i.toNat + x.val ≤ 0xFFF → ∃ t, exec (.loadRegs x) s = .next t ∧
    (∀ k : Nibble, k.val ≤ x.val → t.getV k = s.readByte (s.i.toNat + k.val)) ∧
    (∀ k : Nibble, k.val > x.val → t.getV k = s.getV k) ∧ t.pc = s.pc + 2 ∧ KeepsAllBut [.regs, .pc] s t) ∧
  ∀ x s, s.i.toNat + x.val > 0xFFF → ∃ t, exec (.loadRegs x) s = .next t ∧ FaultEntered 2 s t

/-! ## Display (43_display.md) -/

/-- R160 and R161, CLS: every cell is 0, and VF and everything else is unchanged. -/
def Obligations.ClearTurnsEveryCellOff : Prop :=
  RowReadsAs 0xFFFF 0x00E0 (fun _ => .cls) ∧
  ∀ s, ∃ t, exec .cls s = .next t ∧ (∀ c r, t.disp.get c r = false) ∧ t.pc = s.pc + 2 ∧ KeepsAllBut [.disp, .pc] s t

/-- R165: no cell is the target of two visits of one draw; the draw of R163 equals the one-shot XOR with the wrapped sprite mask, with
the collision flag of R164; and drawing the same sprite twice restores the buffer. -/
def Obligations.DrawSpriteIsOneXorWithTheMask : Prop :=
  ∀ (ox oy : Nat) (rows : List Byte) (d : Display), ox < 64 → oy < 32 → rows.length ≤ 15 →
    (∀ k j k' j', k < rows.length → k' < rows.length → j < 8 → j' < 8 → (ox + j) % 64 = (ox + j') % 64 →
      (oy + k) % 32 = (oy + k') % 32 → k = k' ∧ j = j') ∧
    XoredWith (SpriteCovers ox oy rows) d (Display.drawSprite ox oy rows d).1 ∧
    ((Display.drawSprite ox oy rows d).2 = true ↔ Collides (SpriteCovers ox oy rows) d) ∧
    (Display.drawSprite ox oy rows (Display.drawSprite ox oy rows d).1).1 = d

/-- DRW Vx, Vy, n as a whole (43_display.md R162, R164, R165): the n bytes at I XORed in at (V[x] mod 64, V[y] mod 32) with the wrap, VF
the collision, every other register and I unchanged; or BOUNDS_DATA with display and VF unchanged. With n = 0 it never faults. -/
def Obligations.DrawXorsTheSpriteAndFlagsCollision : Prop :=
  RowReadsAs 0xF000 0xD000 (fun w => .drw (xField w) (yField w) (nField w)) ∧
  (∀ (x y n : Nibble) (s : State) (rows : List Byte), (n.val = 0 ∨ s.i.toNat + n.val - 1 ≤ 0xFFF) →
    rows.length = n.val → HoldsBytes s s.i.toNat rows →
    ∃ t, exec (.drw x y n) s = .next t ∧
      XoredWith (SpriteCovers ((s.getV x).toNat % 64) ((s.getV y).toNat % 32) rows) s.disp t.disp ∧
      (Collides (SpriteCovers ((s.getV x).toNat % 64) ((s.getV y).toNat % 32) rows) s.disp → t.getV vf = 1) ∧
      (¬Collides (SpriteCovers ((s.getV x).toNat % 64) ((s.getV y).toNat % 32) rows) s.disp → t.getV vf = 0) ∧
      (∀ j, j ≠ vf → t.getV j = s.getV j) ∧ t.pc = s.pc + 2 ∧ KeepsAllBut [.regs, .disp, .pc] s t) ∧
  ∀ (x y n : Nibble) (s : State), n.val ≥ 1 → s.i.toNat + n.val - 1 > 0xFFF →
    ∃ t, exec (.drw x y n) s = .next t ∧ FaultEntered 2 s t

/-- Executing the same DRW twice, with origin registers other than VF, restores the display, and the second draw collides exactly where
the first turned a cell on (43_display.md R165; 95_test_vectors.md E6). -/
def Obligations.DrawingTwiceRestoresTheDisplay : Prop :=
  ∀ (x y n : Nibble) (s : State), x ≠ vf → y ≠ vf → (n.val = 0 ∨ s.i.toNat + n.val - 1 ≤ 0xFFF) →
    ∃ t u, exec (.drw x y n) s = .next t ∧ exec (.drw x y n) t = .next u ∧ u.disp = s.disp ∧
      (u.getV vf = 1 ↔ ∃ c r, s.disp.get c r = false ∧ t.disp.get c r = true) ∧ (∀ j, j ≠ vf → u.getV j = s.getV j) ∧
      KeepsAllBut [.regs, .pc] s u

/-! ## Input and timers (44_input_timers.md) -/

/-- R180 and R181, SKP and SKNP: the key's level now decides the skip; a key number above 0xF faults. -/
def Obligations.KeySkipsFollowTheKeyLevel : Prop :=
  RowReadsAs 0xF0FF 0xE09E (fun w => .skp (xField w)) ∧ RowReadsAs 0xF0FF 0xE0A1 (fun w => .sknp (xField w)) ∧
  (∀ (x : Nibble) (s : State) (k : Nibble), (s.getV x).toNat = k.val →
    (∃ t, exec (.skp x) s = .next t ∧ SkipsWhen (s.key[k] = true) s t) ∧
    ∃ t, exec (.sknp x) s = .next t ∧ SkipsWhen (s.key[k] = false) s t) ∧
  ∀ (x : Nibble) (s : State), (s.getV x).toNat > 0xF →
    (∃ t, exec (.skp x) s = .next t ∧ FaultEntered 5 s t) ∧ ∃ t, exec (.sknp x) s = .next t ∧ FaultEntered 5 s t

/-- LD Vx, DT; LD DT, Vx; LD ST, Vx (44_input_timers.md R182-R184): what each writes, and its frame. -/
def Obligations.TimerAccessMovesOneByte : Prop :=
  RowReadsAs 0xF0FF 0xF007 (fun w => .ldVxDt (xField w)) ∧ RowReadsAs 0xF0FF 0xF015 (fun w => .ldDtVx (xField w)) ∧
  RowReadsAs 0xF0FF 0xF018 (fun w => .ldStVx (xField w)) ∧
  ∀ (x : Nibble) (s : State),
    (∃ t, exec (.ldVxDt x) s = .next t ∧ WritesRegister x s.dt s t) ∧
    (∃ t, exec (.ldDtVx x) s = .next t ∧ t.dt = s.getV x ∧ t.pc = s.pc + 2 ∧ KeepsAllBut [.dt, .pc] s t) ∧
    ∃ t, exec (.ldStVx x) s = .next t ∧ t.st = s.getV x ∧ t.pc = s.pc + 2 ∧ KeepsAllBut [.st, .pc] s t

/-! ## Unassigned words (45_unassigned.md) -/

/-- R200: a word that matches none of the 28 patterns, 0x0000 among them, only advances PC; at 0xFFE it leaves PC at 0x1000, where
the next fetch faults. -/
def Obligations.UnassignedWordsOnlyAdvancePc : Prop :=
  isUnassigned 0x0000 = true ∧
  ∀ (w : Word) (s : State), (isUnassigned w = true → decodeWord w = .noop w) ∧
    ∃ t, exec (.noop w) s = .next t ∧ t.pc = s.pc + 2 ∧ KeepsAllBut [.pc] s t ∧
      (s.fault.valid = false → s.pc = 0xFFE → t.pc = 0x1000 ∧ ∃ u, step t = .next u ∧ FaultEntered 1 t u)

/-- R130: the words 8xy6 to 8xyF execute as the no-op. -/
def Obligations.ShiftWordsAreNoops : Prop :=
  ∀ (w : Word) (s : State), opField w = 0x8 → 6 ≤ (nField w).val →
    ∃ t, exec (decodeWord w) s = .next t ∧ t.pc = s.pc + 2 ∧ KeepsAllBut [.pc] s t

/-! ## Timers, scheduler and host ports (60_exceptions.md) -/

/-- R220: both timers count down by one, never below zero. -/
def Obligations.TimersCountDownToZero : Prop :=
  ∀ s : State, s.timerDecrement.dt.toNat = s.dt.toNat - 1 ∧ s.timerDecrement.st.toNat = s.st.toNat - 1 ∧
    KeepsAllBut [.dt, .st] s s.timerDecrement

/-- What a tick does (60_exceptions.md R232, R233). Stopped, nothing, but for the keys written inside it. Running and not paused, `max(1, k)` steps
for the whole number `k` with `k ≤ ips * elapsed / 1000 < k + 1`, with key writes between them; paused, none; and then, exactly when
60 * elapsed reaches 1000, one decrement and the new baseline.

The clauses on `runSteps` are the model's choice (DESIGN CHOICE, log entry 8): the spec lets a key write come between any two steps of a
tick (R241), and the model takes the writes as lists. A step, then the first list of writes, then the other steps with the other lists;
lists past the last step land after it; each list writes the keys it names and nothing else. With no key written inside the tick, its
steps are a plain run. -/
def Obligations.TickRunsItsStepsThenDecrementsOnce : Prop :=
  (∀ (s : State) (ws : List KeyWrite), KeysWritten ws s (s.setKeys ws) ∧ KeepsAllBut [.key] s (s.setKeys ws)) ∧
  (∀ (s : State) (wss : List (List KeyWrite)), runSteps 0 wss s = .next (s.setKeys wss.flatten)) ∧
  (∀ (n : Nat) (s : State) (ws : List KeyWrite) (wss : List (List KeyWrite)),
    ∃ t, step s = .next t ∧ runSteps (n + 1) (ws :: wss) s = runSteps n wss (t.setKeys ws)) ∧
  (∀ (n : Nat) (s : State), runSteps n [] s = runFor n s) ∧
  ∀ (s : State) (now : Time), s.baseline ≤ now →
    (s.running = false → tick now [] s = .next s ∧
      ∀ writes, ∃ t, tick now writes s = .next t ∧ KeepsAllBut [.key] s t ∧ KeysWritten writes.flatten s t) ∧
    (s.running = true → ∀ k : Nat, (k : Rat) ≤ s.ips * (now - s.baseline) / 1000 →
      s.ips * (now - s.baseline) / 1000 < (k : Rat) + 1 → ∀ writes,
      ∃ u t, runSteps (if s.paused then 0 else max 1 k) writes s = .next u ∧ tick now writes s = .next t ∧
        hostCall (.tick now writes) s = .next (t, .ok) ∧ KeysWritten writes.flatten s t ∧
        (60 * (now - s.baseline) ≥ 1000 → t.dt.toNat = u.dt.toNat - 1 ∧ t.st.toNat = u.st.toNat - 1 ∧ t.baseline = now ∧
          KeepsAllBut [.dt, .st, .baseline] u t) ∧
        (60 * (now - s.baseline) < 1000 → t = u))

/-- R234: `setPaused` writes the one bit; a running tick while paused runs no step, whatever keys are written inside it, but takes
the timer branch, and the keys end as the writes leave them. -/
def Obligations.APausedTickOnlyCountsTime : Prop :=
  (∀ (s : State) (b : Bool), ∃ t, hostCall (.setPaused b) s = .next (t, .ok) ∧ t.paused = b ∧ KeepsAllBut [.paused] s t) ∧
  ∀ (s : State) (now : Time) (writes : List (List KeyWrite)), s.running = true → s.paused = true → s.baseline ≤ now →
    ∃ t, tick now writes s = .next t ∧ KeepsAllBut [.key, .dt, .st, .baseline] s t ∧ KeysWritten writes.flatten s t ∧
      (60 * (now - s.baseline) ≥ 1000 → t.dt.toNat = s.dt.toNat - 1 ∧ t.st.toNat = s.st.toNat - 1 ∧ t.baseline = now) ∧
      (60 * (now - s.baseline) < 1000 → t.dt = s.dt ∧ t.st = s.st ∧ t.baseline = s.baseline)

/-- R235: `start(now)` sets running and the baseline, `stop()` clears running, neither changes anything else, and a tick while
stopped changes nothing. -/
def Obligations.StartAndStopSwitchTheScheduler : Prop :=
  (∀ (s : State) (now : Time), s.baseline ≤ now → ∃ t, hostCall (.start now) s = .next (t, .ok) ∧ t.running = true ∧
    t.baseline = now ∧ KeepsAllBut [.running, .baseline] s t) ∧
  (∀ s : State, ∃ t, hostCall .stop s = .next (t, .ok) ∧ t.running = false ∧ KeepsAllBut [.running] s t) ∧
  ∀ (s : State) (now : Time), s.running = false → s.baseline ≤ now → hostCall (.tick now []) s = .next (s, .ok)

/-- R236: `setIps(v)` writes the rate for any natural number; with 0, a running, unpaused tick runs exactly one step. -/
def Obligations.AnIpsOfZeroRunsOneStepATick : Prop :=
  (∀ (s : State) (v : Nat), ∃ t, hostCall (.setIps v) s = .next (t, .ok) ∧ t.ips = v ∧ KeepsAllBut [.ips] s t) ∧
  ∀ (s : State) (now : Time), s.ips = 0 → s.running = true → s.paused = false → s.baseline ≤ now →
    ∃ u t, step s = .next u ∧ tick now [] s = .next t ∧
      (60 * (now - s.baseline) < 1000 → t = u) ∧ (60 * (now - s.baseline) ≥ 1000 →
        t.dt.toNat = u.dt.toNat - 1 ∧ t.st.toNat = u.st.toNat - 1 ∧ t.baseline = now ∧ KeepsAllBut [.dt, .st, .baseline] u t)

/-- `setKey(k, b)` writes that key and nothing else (60_exceptions.md R241). -/
def Obligations.SetKeyWritesOneKey : Prop :=
  ∀ (s : State) (k : Nibble) (b : Bool), ∃ t, hostCall (.setKey k b) s = .next (t, .ok) ∧ t.key[k] = b ∧
    (∀ j : Nibble, j ≠ k → t.key[j] = s.key[j]) ∧ KeepsAllBut [.key] s t

/-- The display port shows `disp` and `inspect()` the state, and neither read changes anything (60_exceptions.md R242, R246; that
`inspect()` shows the model's own fields too is log entry 16). -/
def Obligations.ReadingPortsChangeNothing : Prop :=
  ∀ s : State, hostCall .readDisplay s = .next (s, .display s.disp) ∧ hostCall .inspect s = .next (s, .state s)

/-! ## Reset, load and boot (70_reset_and_hazards.md) -/

/-- R261: what `reset()` leaves in every piece of state, and what it leaves unchanged. -/
def Obligations.ResetPortClearsTheMachine : Prop :=
  ∀ s : State, ∃ t, hostCall .reset s = .next (t, .ok) ∧
    (∀ j, (h : j < 80) → t.readByte (0x050 + j) = s.params.font[j]) ∧
    (∀ a, a < 0x050 ∨ 0x0A0 ≤ a → t.readByte a = 0) ∧
    (∀ x, t.getV x = 0) ∧ t.i = 0 ∧ t.stack = [] ∧ t.dt = 0 ∧ t.st = 0 ∧ t.pc = 0x200 ∧ t.paused = false ∧
    (∀ c r, t.disp.get c r = false) ∧ t.fault = { valid := false, cause := 0, pc := 0 } ∧
    KeepsAllBut [.mem, .regs, .index, .stack, .dt, .st, .pc, .paused, .disp, .fault] s t

/-- R262 and R263: an image that fits is copied to 0x200 over zeroed memory and PC is 0x200; an oversize one changes nothing. -/
def Obligations.LoadProgramCopiesOrRejects : Prop :=
  (∀ (s : State) (bytes : List Byte), bytes.length ≤ 3584 → ∃ t, hostCall (.loadProgram bytes) s = .next (t, .ok) ∧
    HoldsBytes t 0x200 bytes ∧ (∀ a, 0x200 + bytes.length ≤ a → t.readByte a = 0) ∧
    (∀ a, a < 0x200 → t.readByte a = s.readByte a) ∧ t.pc = 0x200 ∧ KeepsAllBut [.mem, .pc] s t) ∧
  ∀ (s : State) (bytes : List Byte), bytes.length > 3584 → hostCall (.loadProgram bytes) s = .next (s, .rejected)

/-- R265: from construction, loading a program, running any number of steps and resetting gives back the construction state, the
model's own count of random draws apart. -/
def Obligations.LoadThenResetRestoresConstruction : Prop :=
  ∀ (bytes : List Byte) (k : Nat) (t : State), runFor k (loadProgram bytes State.reset).1 = .next t →
    hostCall .reset t = .next ({ State.reset with draws := t.draws }, .ok)

/-- R260: the construction values of 10_state.md R40, which the state after reset holds too. -/
def Obligations.ConstructionValuesHoldAtReset : Prop :=
  (∀ x, State.reset.getV x = 0) ∧ State.reset.i = 0 ∧ State.reset.pc = 0x200 ∧ State.reset.stack = [] ∧ State.reset.dt = 0 ∧
  State.reset.st = 0 ∧ (∀ a, a < 0x050 ∨ 0x0A0 ≤ a → State.reset.readByte a = 0) ∧
  (∀ j, (h : j < 80) → State.reset.readByte (0x050 + j) = State.reset.params.font[j]) ∧
  (∀ c r, State.reset.disp.get c r = false) ∧ (∀ k : Nibble, State.reset.key[k] = false) ∧ State.reset.paused = false ∧
  State.reset.running = false ∧ State.reset.ips = 600 ∧ State.reset.baseline = 0 ∧
  State.reset.fault = { valid := false, cause := 0, pc := 0 }

/-- The boot sequence of a fresh run (70_reset_and_hazards.md R264): from any state, after reset, load and start, a program may
assume the reset values with its image at 0x200. -/
def Obligations.BootGivesAFreshRun : Prop :=
  ∀ (s : State) (image : List Byte) (last now : Time), image.length ≤ 3584 → last ≤ now → s.baseline ≤ now →
    ∃ t, runCalls last (bootCalls image now) s = .next t ∧ HoldsBytes t 0x200 image ∧ t.pc = 0x200 ∧ (∀ x, t.getV x = 0) ∧
      t.i = 0 ∧ t.dt = 0 ∧ t.st = 0 ∧ t.stack = [] ∧ (∀ c r, t.disp.get c r = false) ∧ t.fault.valid = false ∧
      (∀ j, (h : j < 80) → t.readByte (0x050 + j) = s.params.font[j]) ∧
      (∀ a, a < 0x050 ∨ (0x0A0 ≤ a ∧ a < 0x200) ∨ 0x200 + image.length ≤ a → t.readByte a = 0) ∧
      t.paused = false ∧ t.running = true ∧ t.baseline = now

/-- A self-jump at PC is the end of a run: without a fault, a step there changes nothing (70_reset_and_hazards.md R274, 40_flow.md
R101). -/
def Obligations.ASelfJumpStaysWhereItIs : Prop :=
  ∀ s : State, s.atSelfJump = true → step s = .next s

/-! ## Whole-machine rules -/

/-- The invariant of 10_state.md R41, with memory in canonical form, holds after reset. -/
def Obligations.InvariantHoldsAtReset : Prop := Inv State.reset

/-- The invariant of 10_state.md R41 is kept by every step from every state that meets it. -/
def Obligations.EveryStepKeepsTheInvariant : Prop := ∀ s t : State, Inv s → step s = .next t → Inv t

/-- The invariant is kept by every sequence of host calls: resets, loads, ticks with key writes inside them, and the rest (10_state.md
R41, 60_exceptions.md R240). -/
def Obligations.HostCallsKeepTheInvariant : Prop :=
  ∀ (last : Time) (calls : List HostCall) (s t : State), Inv s → runCalls last calls s = .next t → Inv t

/-- No instruction reaches the control state or the input state: whatever it does, `paused`, `running`, `ips`, `baseline`, `key` and the
parameters are unchanged, and the fault register changes only by a fault's entry (60_exceptions.md R218, 10_state.md R31, R38). -/
def Obligations.NoInstructionReachesControlState : Prop :=
  ∀ (i : Instr) (s t : State), exec i s = .next t →
    KeepsAllBut [.regs, .index, .pc, .stack, .dt, .st, .mem, .disp, .fault, .draws] s t ∧
    (t.fault = s.fault ∨ ∃ c : FaultCause, FaultEntered (causeCode c) s t)
end

