-- ==== Sys2Proof/Laws/Decode.lean ====
section
/-! SUPPORT. The fields of a word, the words the encoder packs, and masks as conditions on fields. -/

namespace Sys2Proof

theorem opField_val (w : Word) : (opField w).val = w.toNat / 4096 := by
  have := w.isLt
  simp [opField, Nat.shiftRight_eq_div_pow]
  omega

theorem xField_val (w : Word) : (xField w).val = w.toNat / 256 % 16 := by
  simp [xField, Nat.shiftRight_eq_div_pow]

theorem yField_val (w : Word) : (yField w).val = w.toNat / 16 % 16 := by
  simp [yField, Nat.shiftRight_eq_div_pow]

theorem nField_val (w : Word) : (nField w).val = w.toNat % 16 := by
  simp [nField]

theorem nnField_toNat (w : Word) : (nnField w).toNat = w.toNat % 256 := by
  simp [nnField]

theorem nnnField_toNat (w : Word) : (nnnField w).toNat = w.toNat % 4096 := by
  simp [nnnField]

/-! ## The fields of a packed word -/

theorem packNnn_toNat (op : Nibble) (nnn : Addr) : (packNnn op nnn).toNat = op.val * 4096 + nnn.toNat := by
  have := op.isLt; have := nnn.isLt
  simp [packNnn]; omega

theorem packXnn_toNat (op x : Nibble) (nn : Byte) : (packXnn op x nn).toNat = op.val * 4096 + x.val * 256 + nn.toNat := by
  have := op.isLt; have := x.isLt; have := nn.isLt
  simp [packXnn]; omega

theorem packXyn_toNat (op x y n : Nibble) :
    (packXyn op x y n).toNat = op.val * 4096 + x.val * 256 + y.val * 16 + n.val := by
  have := op.isLt; have := x.isLt; have := y.isLt; have := n.isLt
  simp [packXyn]; omega

@[simp] theorem opField_packNnn (op : Nibble) (nnn : Addr) : opField (packNnn op nnn) = op := by
  have := nnn.isLt
  apply Fin.ext; rw [opField_val, packNnn_toNat]; omega

@[simp] theorem nnnField_packNnn (op : Nibble) (nnn : Addr) : nnnField (packNnn op nnn) = nnn := by
  have := nnn.isLt
  apply BitVec.eq_of_toNat_eq; rw [nnnField_toNat, packNnn_toNat]; omega

@[simp] theorem opField_packXnn (op x : Nibble) (nn : Byte) : opField (packXnn op x nn) = op := by
  have := x.isLt; have := nn.isLt
  apply Fin.ext; rw [opField_val, packXnn_toNat]; omega

@[simp] theorem xField_packXnn (op x : Nibble) (nn : Byte) : xField (packXnn op x nn) = x := by
  have := x.isLt; have := nn.isLt
  apply Fin.ext; rw [xField_val, packXnn_toNat]; omega

@[simp] theorem nnField_packXnn (op x : Nibble) (nn : Byte) : nnField (packXnn op x nn) = nn := by
  have := nn.isLt
  apply BitVec.eq_of_toNat_eq; rw [nnField_toNat, packXnn_toNat]; omega

@[simp] theorem opField_packXyn (op x y n : Nibble) : opField (packXyn op x y n) = op := by
  have := x.isLt; have := y.isLt; have := n.isLt
  apply Fin.ext; rw [opField_val, packXyn_toNat]; omega

@[simp] theorem xField_packXyn (op x y n : Nibble) : xField (packXyn op x y n) = x := by
  have := x.isLt; have := y.isLt; have := n.isLt
  apply Fin.ext; rw [xField_val, packXyn_toNat]; omega

@[simp] theorem yField_packXyn (op x y n : Nibble) : yField (packXyn op x y n) = y := by
  have := y.isLt; have := n.isLt
  apply Fin.ext; rw [yField_val, packXyn_toNat]; omega

@[simp] theorem nField_packXyn (op x y n : Nibble) : nField (packXyn op x y n) = n := by
  have := n.isLt
  apply Fin.ext; rw [nField_val, packXyn_toNat]; omega

/-! ## Masks as conditions on fields (30_encoding.md R85) -/

theorem toNat_and_F000 (w : Word) : (w &&& (0xF000 : Word)).toNat = (opField w).val * 4096 := by
  have h : w &&& (0xF000 : Word) = (w >>> 12) <<< 12 := by
    apply BitVec.eq_of_getLsbD_eq
    intro k hk
    interval_cases k <;> simp
  have := w.isLt
  rw [h, opField_val]
  simp [Nat.shiftLeft_eq, Nat.shiftRight_eq_div_pow]
  omega

theorem and_F000_eq (w : Word) (op : Nibble) : w &&& 0xF000 = BitVec.ofNat 16 (op.val * 4096) ↔ opField w = op := by
  have := op.isLt
  rw [← BitVec.toNat_inj, toNat_and_F000, Fin.ext_iff]
  simp; omega

theorem toNat_and_000F (w : Word) : (w &&& 0x000F).toNat = (nField w).val := by
  rw [nField_val, BitVec.toNat_and]
  exact Nat.and_two_pow_sub_one_eq_mod w.toNat 4

theorem toNat_and_00FF (w : Word) : (w &&& 0x00FF).toNat = (nnField w).toNat := by
  rw [nnField_toNat, BitVec.toNat_and]
  exact Nat.and_two_pow_sub_one_eq_mod w.toNat 8

/-- A row that fixes op alone. -/
theorem selects_op (w : Word) (op : Nibble) :
    w &&& 0xF000 = BitVec.ofNat 16 (op.val * 4096) ↔ opField w = op := and_F000_eq w op

theorem and_split (w a b : Word) : w &&& (a ||| b) = (w &&& a) ||| (w &&& b) := by
  apply BitVec.eq_of_getLsbD_eq
  intro k hk
  simp [Bool.and_or_distrib_left]

/-- A row that fixes op and n. -/
theorem selects_op_n (w : Word) (op n : Nibble) :
    w &&& 0xF00F = BitVec.ofNat 16 (op.val * 4096 + n.val) ↔ opField w = op ∧ nField w = n := by
  have hs : w &&& 0xF00F = BitVec.ofNat 16 ((opField w).val * 4096 + (nField w).val) := by
    have h1 : w &&& 0xF000 = BitVec.ofNat 16 ((opField w).val * 4096) := (and_F000_eq w _).2 rfl
    have h2 : w &&& 0x000F = BitVec.ofNat 16 (nField w).val := by
      apply BitVec.eq_of_toNat_eq
      rw [toNat_and_000F]
      have := (nField w).isLt
      simp; omega
    have e := and_split w 0xF000 0x000F
    rw [h1, h2] at e
    refine (show w &&& 0xF00F = w &&& (0xF000 ||| 0x000F) from rfl).trans (e.trans ?_)
    generalize opField w = o
    generalize nField w = m
    revert o m
    decide
  rw [hs, ← BitVec.toNat_inj, Fin.ext_iff, Fin.ext_iff]
  have := op.isLt; have := n.isLt; have := (opField w).isLt; have := (nField w).isLt
  simp; omega

/-- A row that fixes op and nn. -/
theorem selects_op_nn (w : Word) (op : Nibble) (nn : Byte) :
    w &&& 0xF0FF = BitVec.ofNat 16 (op.val * 4096 + nn.toNat) ↔ opField w = op ∧ nnField w = nn := by
  have hs : w &&& 0xF0FF = BitVec.ofNat 16 ((opField w).val * 4096 + (nnField w).toNat) := by
    have h1 : w &&& 0xF000 = BitVec.ofNat 16 ((opField w).val * 4096) := (and_F000_eq w _).2 rfl
    have h2 : w &&& 0x00FF = BitVec.ofNat 16 (nnField w).toNat := by
      apply BitVec.eq_of_toNat_eq
      rw [toNat_and_00FF]
      have := (nnField w).isLt
      simp; omega
    have e := and_split w 0xF000 0x00FF
    rw [h1, h2] at e
    refine (show w &&& 0xF0FF = w &&& (0xF000 ||| 0x00FF) from rfl).trans (e.trans ?_)
    have ho := (opField w).isLt
    have hn := (nnField w).isLt
    apply BitVec.eq_of_toNat_eq
    rw [BitVec.toNat_or, BitVec.toNat_ofNat, BitVec.toNat_ofNat, BitVec.toNat_ofNat,
      Nat.mod_eq_of_lt (by omega), Nat.mod_eq_of_lt (by omega), Nat.mod_eq_of_lt (by omega)]
    rw [show (opField w).val * 4096 = (opField w).val <<< 12 by simp [Nat.shiftLeft_eq]]
    exact (Nat.shiftLeft_add_eq_or_of_lt (by omega) _).symm
  rw [hs, ← BitVec.toNat_inj, Fin.ext_iff, ← BitVec.toNat_inj]
  have := op.isLt; have := nn.isLt; have := (opField w).isLt; have := (nnField w).isLt
  simp; omega

end Sys2Proof
end

