-- ==== Sys2Proof/Laws/Display.lean ====
section
/-! SUPPORT. What a cell holds after a toggle, a clear and one visit of a draw. -/

namespace Sys2Proof.Machine

@[simp] theorem Display.get_clear (c : Fin 64) (r : Fin 32) : Display.get Display.clear c r = false := by
  simp [Display.get, Display.clear]

/-- A toggle inverts its own cell and leaves every other one. -/
@[simp] theorem Display.get_toggle (d : Display) (c c' : Fin 64) (r r' : Fin 32) :
    (d.toggle c r).get c' r' = if c' = c ∧ r' = r then !d.get c r else d.get c' r' := by
  unfold Display.toggle Display.get
  by_cases hc : c' = c
  · subst hc
    by_cases hr : r' = r
    · subst hr; simp
    · have : r.val ≠ r'.val := fun e => hr (Fin.ext e.symm)
      simp [this, hr]
  · have : c.val ≠ c'.val := fun e => hc (Fin.ext e.symm)
    simp [this, hc]

/-- Two buffers with the same cells are the same buffer. -/
theorem Display.ext_get {d e : Display} (h : ∀ c r, d.get c r = e.get c r) : d = e := by
  apply Vector.ext
  intro c hc
  apply Vector.ext
  intro r hr
  exact h ⟨c, hc⟩ ⟨r, hr⟩

/-- A 0 bit of the sprite changes nothing (43_display.md R163). -/
theorem Display.drawBit_zero (ox oy r : Nat) (row : Byte) (acc : Display × Bool) (c : Nat)
    (h : row.getLsbD (7 - c) = false) : Display.drawBit ox oy r row acc c = acc := by
  simp [Display.drawBit, h]

/-- A 1 bit of the sprite toggles its cell and reports whether it was on (R163). -/
theorem Display.drawBit_one (ox oy r : Nat) (row : Byte) (acc : Display × Bool) (c : Nat)
    (h : row.getLsbD (7 - c) = true) :
    Display.drawBit ox oy r row acc c =
      (acc.1.toggle (Fin.ofNat 64 (ox + c)) (Fin.ofNat 32 (oy + r)),
        acc.2 || acc.1.get (Fin.ofNat 64 (ox + c)) (Fin.ofNat 32 (oy + r))) := by
  simp [Display.drawBit, h]

/-- A sprite without rows draws nothing and reports no collision (R164). -/
@[simp] theorem Display.drawSprite_nil (ox oy : Nat) (d : Display) : Display.drawSprite ox oy [] d = (d, false) := rfl

/-! ## A draw as its visits -/

/-- One visit of R163's inner loop: the sprite row's number and byte, and the column in it. -/
structure SpriteVisit where
  r : Nat
  row : Byte
  c : Nat

/-- The cell a visit lands on, after the wrap (R163). -/
def SpriteVisit.target (ox oy : Nat) (v : SpriteVisit) : Fin 64 × Fin 32 :=
  (Fin.ofNat 64 (ox + v.c), Fin.ofNat 32 (oy + v.r))

/-- Whether the sprite has a 1 bit there. -/
def SpriteVisit.isOn (v : SpriteVisit) : Bool := v.row.getLsbD (7 - v.c)

/-- A visit's effect. -/
def SpriteVisit.apply (ox oy : Nat) (acc : Display × Bool) (v : SpriteVisit) : Display × Bool :=
  Display.drawBit ox oy v.r v.row acc v.c

/-- The visits of a draw in R163's order, for rows numbered from `r` on. -/
def spriteVisits : Nat → List Byte → List SpriteVisit
  | _, [] => []
  | r, row :: rows => (List.range 8).map (fun c => ⟨r, row, c⟩) ++ spriteVisits (r + 1) rows

/-- A draw is its visits, one after another. -/
theorem Display.drawRows_eq_foldl (ox oy r : Nat) (rows : List Byte) (acc : Display × Bool) :
    Display.drawRows ox oy r rows acc = (spriteVisits r rows).foldl (SpriteVisit.apply ox oy) acc := by
  induction rows generalizing r acc with
  | nil => rfl
  | cons row rows ih =>
    rw [spriteVisits, List.foldl_append, ← ih, List.foldl_map]
    rfl

/-- The visits of a draw: every row with every column of 0..7. -/
theorem mem_spriteVisits (r : Nat) (rows : List Byte) (v : SpriteVisit) :
    v ∈ spriteVisits r rows ↔ ∃ k, ∃ h : k < rows.length, v.r = r + k ∧ v.row = rows[k] ∧ v.c < 8 := by
  induction rows generalizing r with
  | nil => simp [spriteVisits]
  | cons row rows ih =>
    simp only [spriteVisits, List.mem_append, List.mem_map, List.mem_range, ih]
    constructor
    · rintro (⟨c, hc, rfl⟩ | ⟨k, hk, h1, h2, h3⟩)
      · exact ⟨0, by simp, by simp, by simp, hc⟩
      · exact ⟨k + 1, by simpa using hk, by omega, by simpa using h2, h3⟩
    · rintro ⟨k, hk, h1, h2, h3⟩
      cases k with
      | zero => exact .inl ⟨v.c, h3, by cases v; simp_all⟩
      | succ k => exact .inr ⟨k, by simpa using hk, by omega, by simpa using h2, h3⟩

/-- What a run of visits leaves when no two of them land on the same cell: each cell inverted exactly when a 1 bit lands on it, and the
flag set exactly when a 1 bit lands on a cell that was on. -/
theorem foldl_spriteVisits (ox oy : Nat) (vs : List SpriteVisit) (acc : Display × Bool)
    (hd : vs.Pairwise fun a b => a.target ox oy ≠ b.target ox oy) :
    (∀ c r, (vs.foldl (SpriteVisit.apply ox oy) acc).1.get c r =
      (acc.1.get c r ^^ vs.any fun v => v.isOn && decide (v.target ox oy = (c, r)))) ∧
    (vs.foldl (SpriteVisit.apply ox oy) acc).2 =
      (acc.2 || vs.any fun v => v.isOn && acc.1.get (v.target ox oy).1 (v.target ox oy).2) := by
  induction vs generalizing acc with
  | nil => simp
  | cons v vs ih =>
    rw [List.pairwise_cons] at hd
    obtain ⟨h1, h2⟩ := ih (SpriteVisit.apply ox oy acc v) hd.2
    simp only [List.foldl_cons, List.any_cons]
    cases hon : v.isOn with
    | false =>
      have e : SpriteVisit.apply ox oy acc v = acc := Display.drawBit_zero _ _ _ _ _ _ hon
      rw [e] at h1 h2 ⊢
      simp only [Bool.false_and, Bool.false_or]
      exact ⟨h1, h2⟩
    | true =>
      have e : SpriteVisit.apply ox oy acc v = (acc.1.toggle (v.target ox oy).1 (v.target ox oy).2,
          acc.2 || acc.1.get (v.target ox oy).1 (v.target ox oy).2) := Display.drawBit_one _ _ _ _ _ _ hon
      constructor
      · intro c r
        rw [h1, e]
        simp only [Display.get_toggle, Bool.true_and]
        by_cases hv : v.target ox oy = (c, r)
        · have : (vs.any fun u => u.isOn && decide (u.target ox oy = (c, r))) = false := by
            rw [List.any_eq_false]
            intro u hu
            have := hd.1 u hu
            rw [hv] at this
            simp [this.symm]
          rw [this]; simp [hv]
        · have : ¬(c = (v.target ox oy).1 ∧ r = (v.target ox oy).2) := by rintro ⟨rfl, rfl⟩; exact hv rfl
          simp [hv, this]
      · rw [h2, e]
        simp only [Display.get_toggle, Bool.true_and, Bool.or_assoc]
        congr 2
        have : ∀ u ∈ vs, ¬((u.target ox oy).1 = (v.target ox oy).1 ∧ (u.target ox oy).2 = (v.target ox oy).2) :=
          fun u hu ⟨e1, e2⟩ => hd.1 u hu (Prod.ext e1.symm e2.symm)
        rw [Bool.eq_iff_iff, List.any_eq_true, List.any_eq_true]
        constructor <;> rintro ⟨u, hu, h⟩ <;> refine ⟨u, hu, ?_⟩ <;> simpa [this u hu] using h

end Sys2Proof.Machine
end

