-- ==== Sys2Proof/Laws/Memory.lean ====
section
/-! SUPPORT. What a read sees after a write, and that every memory operation keeps the canonical form. -/

namespace Sys2Proof.Machine

variable (font : Vector Byte 80)

@[simp] theorem Memory.read_nil (a : Nat) : Memory.read font [] a = Memory.unlisted font a := rfl

/-- An address outside the font reads as zero where nothing is listed (20_memory.md R58). -/
theorem Memory.unlisted_eq_zero (a : Nat) (h : a < fontBase ∨ fontBase + 80 ≤ a) : Memory.unlisted font a = 0 := by
  unfold Memory.unlisted
  split
  · have : ¬a - fontBase < 80 := by omega
    simp [Vector.getD, this]
  · rfl

/-- An address inside the font reads as its glyph byte where nothing is listed (10_state.md R33). -/
theorem Memory.unlisted_font (j : Nat) (h : j < 80) : Memory.unlisted font (fontBase + j) = font[j] := by
  simp [Memory.unlisted, Vector.getD, h]

/-- An address no entry of `m` names reads as unlisted. -/
theorem Memory.read_of_not_listed (m : Memory) (a : Nat) (h : ∀ c ∈ m, c.1 ≠ a) :
    Memory.read font m a = Memory.unlisted font a := by
  induction m with
  | nil => rfl
  | cons c rest ih =>
    simp only [List.mem_cons, forall_eq_or_imp] at h
    simp [Memory.read, h.1, ih h.2]

/-- Removing entries that do not name `a` leaves the read of `a`. -/
theorem Memory.read_filter (m : Memory) (p : Host.Cell → Bool) (a : Nat) (h : ∀ c ∈ m, c.1 = a → p c = true) :
    Memory.read font (m.filter p) a = Memory.read font m a := by
  induction m with
  | nil => rfl
  | cons c rest ih =>
    simp only [List.mem_cons, forall_eq_or_imp] at h
    by_cases hc : p c = true
    · simp [hc, Memory.read, ih h.2]
    · have hne : c.1 ≠ a := fun e => hc (h.1 e)
      simp [hc, Memory.read, hne, ih h.2]

theorem Memory.read_insert_same (m : Memory) (a : Nat) (b : Byte) (h : ∀ c ∈ m, c.1 ≠ a) :
    Memory.read font (Memory.insert a b m) a = b := by
  induction m with
  | nil => simp [Memory.insert, Memory.read]
  | cons c rest ih =>
    simp only [List.mem_cons, forall_eq_or_imp] at h
    unfold Memory.insert
    split
    · simp [Memory.read]
    · simp [Memory.read, h.1, ih h.2]

theorem Memory.read_insert_other (m : Memory) (a a' : Nat) (b : Byte) (h : a' ≠ a) :
    Memory.read font (Memory.insert a b m) a' = Memory.read font m a' := by
  induction m with
  | nil => simp [Memory.insert, Memory.read, h.symm]
  | cons c rest ih =>
    unfold Memory.insert
    split
    · simp [Memory.read, h.symm]
    · simp [Memory.read, ih]

/-- What a read sees after a write of one byte. -/
@[simp] theorem Memory.read_write (m : Memory) (a a' : Nat) (b : Byte) :
    Memory.read font (Memory.write font m a b) a' = if a' = a then b else Memory.read font m a' := by
  have hnot : ∀ c ∈ m.filter (fun c => decide (c.1 ≠ a)), c.1 ≠ a := by simp
  unfold Memory.write
  by_cases h : a' = a
  · subst h
    simp only [if_true]
    split
    · next hb => rw [Memory.read_of_not_listed font _ _ hnot, hb]
    · exact Memory.read_insert_same font _ _ _ hnot
  · have hf : Memory.read font (m.filter fun c => decide (c.1 ≠ a)) a' = Memory.read font m a' :=
      Memory.read_filter font m _ a' (by intro c _ hc; simp [hc, h])
    simp only [h, if_false]
    split
    · exact hf
    · rw [Memory.read_insert_other font _ _ _ _ h, hf]

/-- A byte outside those written reads as before. -/
theorem Memory.read_writeBytes_outside (bytes : List Byte) (m : Memory) (a a' : Nat) (h : a' < a ∨ a + bytes.length ≤ a') :
    Memory.read font (Memory.writeBytes font m a bytes) a' = Memory.read font m a' := by
  induction bytes generalizing m a with
  | nil => rfl
  | cons b bytes ih =>
    simp only [List.length_cons] at h
    unfold Memory.writeBytes
    rw [ih _ _ (by omega), Memory.read_write, if_neg (by omega)]

/-- The bytes written read back. -/
theorem Memory.read_writeBytes_inside (bytes : List Byte) (m : Memory) (a k : Nat) (h : k < bytes.length) :
    Memory.read font (Memory.writeBytes font m a bytes) (a + k) = bytes[k] := by
  induction bytes generalizing m a k with
  | nil => simp at h
  | cons b bytes ih =>
    unfold Memory.writeBytes
    match k with
    | 0 =>
      rw [Memory.read_writeBytes_outside font bytes _ _ _ (by omega)]
      simp
    | k + 1 =>
      have := ih (Memory.write font m a b) (a + 1) k (by simpa using h)
      rw [show a + (k + 1) = a + 1 + k by omega]
      simpa using this

/-- What a read sees after everything from `base` up is cleared. -/
theorem Memory.read_clearFrom (m : Memory) (base a : Nat) :
    Memory.read font (m.clearFrom base) a = if a < base then Memory.read font m a else Memory.unlisted font a := by
  unfold Memory.clearFrom
  split
  · next h => exact Memory.read_filter font m _ a (by intro c _ hc; simpa [hc] using h)
  · next h => exact Memory.read_of_not_listed font _ a (by intro c hc; simp at hc; omega)

/-! ## The canonical form -/

theorem Memory.wf_nil : Memory.wf font [] := by simp [Memory.wf]

theorem Memory.wf_filter {m : Memory} (h : Memory.wf font m) (p : Host.Cell → Bool) : Memory.wf font (m.filter p) :=
  ⟨h.1.filter p, fun c hc => h.2 c (List.mem_of_mem_filter hc)⟩

theorem Memory.mem_insert (a : Nat) (b : Byte) (m : Memory) (c : Host.Cell) :
    c ∈ Memory.insert a b m ↔ c = (a, b) ∨ c ∈ m := by
  induction m with
  | nil => simp [Memory.insert]
  | cons d rest ih =>
    unfold Memory.insert
    split
    · simp
    · simp only [List.mem_cons, ih]; tauto

theorem Memory.pairwise_insert (a : Nat) (b : Byte) (m : Memory) (hm : m.Pairwise fun c d => c.1 < d.1)
    (hne : ∀ c ∈ m, c.1 ≠ a) : (Memory.insert a b m).Pairwise fun c d => c.1 < d.1 := by
  induction m with
  | nil => simp [Memory.insert]
  | cons d rest ih =>
    rw [List.pairwise_cons] at hm
    simp only [List.mem_cons, forall_eq_or_imp] at hne
    unfold Memory.insert
    split
    · next h =>
      refine List.pairwise_cons.2 ⟨?_, List.pairwise_cons.2 hm⟩
      intro c hc
      rcases List.mem_cons.1 hc with rfl | hc
      · exact h
      · exact Nat.lt_trans h (hm.1 c hc)
    · next h =>
      refine List.pairwise_cons.2 ⟨?_, ih hm.2 hne.2⟩
      intro c hc
      rcases (Memory.mem_insert a b rest c).1 hc with rfl | hc
      · have := hne.1; simp only; omega
      · exact hm.1 c hc

/-- A write inside the array keeps the canonical form. -/
theorem Memory.wf_write {m : Memory} (h : Memory.wf font m) (a : Nat) (b : Byte) (ha : a < memSize) :
    Memory.wf font (Memory.write font m a b) := by
  have hf := Memory.wf_filter font h fun c => decide (c.1 ≠ a)
  unfold Memory.write
  simp only
  split
  · exact hf
  · next hb =>
    refine ⟨Memory.pairwise_insert a b _ hf.1 (by simp), ?_⟩
    intro c hc
    rcases (Memory.mem_insert a b _ c).1 hc with rfl | hc
    · exact ⟨ha, hb⟩
    · exact hf.2 c hc

theorem Memory.wf_writeBytes {m : Memory} (h : Memory.wf font m) (bytes : List Byte) (a : Nat)
    (ha : a + bytes.length ≤ memSize) : Memory.wf font (Memory.writeBytes font m a bytes) := by
  induction bytes generalizing m a with
  | nil => exact h
  | cons b bytes ih =>
    simp only [List.length_cons] at ha
    exact ih (Memory.wf_write font h a b (by omega)) (a + 1) (by omega)

theorem Memory.wf_clearFrom {m : Memory} (h : Memory.wf font m) (base : Nat) : Memory.wf font (m.clearFrom base) :=
  Memory.wf_filter font h _

end Sys2Proof.Machine
end

