-- ==== Sys2Proof/Laws/State.lean ====
section
/-! SUPPORT. One lemma for each field and each state update, so that no proof unfolds a record update. -/

namespace Sys2Proof.Machine

section setV
variable (s : State) (x : Nibble) (b : Byte)
@[simp] theorem State.setV_params : (s.setV x b).params = s.params := rfl
@[simp] theorem State.setV_v : (s.setV x b).v = s.v.set x b := rfl
@[simp] theorem State.setV_i : (s.setV x b).i = s.i := rfl
@[simp] theorem State.setV_pc : (s.setV x b).pc = s.pc := rfl
@[simp] theorem State.setV_stack : (s.setV x b).stack = s.stack := rfl
@[simp] theorem State.setV_dt : (s.setV x b).dt = s.dt := rfl
@[simp] theorem State.setV_st : (s.setV x b).st = s.st := rfl
@[simp] theorem State.setV_mem : (s.setV x b).mem = s.mem := rfl
@[simp] theorem State.setV_disp : (s.setV x b).disp = s.disp := rfl
@[simp] theorem State.setV_key : (s.setV x b).key = s.key := rfl
@[simp] theorem State.setV_paused : (s.setV x b).paused = s.paused := rfl
@[simp] theorem State.setV_running : (s.setV x b).running = s.running := rfl
@[simp] theorem State.setV_ips : (s.setV x b).ips = s.ips := rfl
@[simp] theorem State.setV_baseline : (s.setV x b).baseline = s.baseline := rfl
@[simp] theorem State.setV_fault : (s.setV x b).fault = s.fault := rfl
@[simp] theorem State.setV_draws : (s.setV x b).draws = s.draws := rfl
end setV

section setPc
variable (s : State) (a : Word)
@[simp] theorem State.setPc_params : (s.setPc a).params = s.params := rfl
@[simp] theorem State.setPc_v : (s.setPc a).v = s.v := rfl
@[simp] theorem State.setPc_i : (s.setPc a).i = s.i := rfl
@[simp] theorem State.setPc_pc : (s.setPc a).pc = a := rfl
@[simp] theorem State.setPc_stack : (s.setPc a).stack = s.stack := rfl
@[simp] theorem State.setPc_dt : (s.setPc a).dt = s.dt := rfl
@[simp] theorem State.setPc_st : (s.setPc a).st = s.st := rfl
@[simp] theorem State.setPc_mem : (s.setPc a).mem = s.mem := rfl
@[simp] theorem State.setPc_disp : (s.setPc a).disp = s.disp := rfl
@[simp] theorem State.setPc_key : (s.setPc a).key = s.key := rfl
@[simp] theorem State.setPc_paused : (s.setPc a).paused = s.paused := rfl
@[simp] theorem State.setPc_running : (s.setPc a).running = s.running := rfl
@[simp] theorem State.setPc_ips : (s.setPc a).ips = s.ips := rfl
@[simp] theorem State.setPc_baseline : (s.setPc a).baseline = s.baseline := rfl
@[simp] theorem State.setPc_fault : (s.setPc a).fault = s.fault := rfl
@[simp] theorem State.setPc_draws : (s.setPc a).draws = s.draws := rfl
end setPc

section fetched
variable (s : State)
@[simp] theorem State.fetched_params : (s.fetched).params = s.params := rfl
@[simp] theorem State.fetched_v : (s.fetched).v = s.v := rfl
@[simp] theorem State.fetched_i : (s.fetched).i = s.i := rfl
@[simp] theorem State.fetched_pc : (s.fetched).pc = s.pc + 2 := rfl
@[simp] theorem State.fetched_stack : (s.fetched).stack = s.stack := rfl
@[simp] theorem State.fetched_dt : (s.fetched).dt = s.dt := rfl
@[simp] theorem State.fetched_st : (s.fetched).st = s.st := rfl
@[simp] theorem State.fetched_mem : (s.fetched).mem = s.mem := rfl
@[simp] theorem State.fetched_disp : (s.fetched).disp = s.disp := rfl
@[simp] theorem State.fetched_key : (s.fetched).key = s.key := rfl
@[simp] theorem State.fetched_paused : (s.fetched).paused = s.paused := rfl
@[simp] theorem State.fetched_running : (s.fetched).running = s.running := rfl
@[simp] theorem State.fetched_ips : (s.fetched).ips = s.ips := rfl
@[simp] theorem State.fetched_baseline : (s.fetched).baseline = s.baseline := rfl
@[simp] theorem State.fetched_fault : (s.fetched).fault = s.fault := rfl
@[simp] theorem State.fetched_draws : (s.fetched).draws = s.draws := rfl
end fetched

section setI
variable (s : State) (a : Word)
@[simp] theorem State.setI_params : (s.setI a).params = s.params := rfl
@[simp] theorem State.setI_v : (s.setI a).v = s.v := rfl
@[simp] theorem State.setI_i : (s.setI a).i = a := rfl
@[simp] theorem State.setI_pc : (s.setI a).pc = s.pc := rfl
@[simp] theorem State.setI_stack : (s.setI a).stack = s.stack := rfl
@[simp] theorem State.setI_dt : (s.setI a).dt = s.dt := rfl
@[simp] theorem State.setI_st : (s.setI a).st = s.st := rfl
@[simp] theorem State.setI_mem : (s.setI a).mem = s.mem := rfl
@[simp] theorem State.setI_disp : (s.setI a).disp = s.disp := rfl
@[simp] theorem State.setI_key : (s.setI a).key = s.key := rfl
@[simp] theorem State.setI_paused : (s.setI a).paused = s.paused := rfl
@[simp] theorem State.setI_running : (s.setI a).running = s.running := rfl
@[simp] theorem State.setI_ips : (s.setI a).ips = s.ips := rfl
@[simp] theorem State.setI_baseline : (s.setI a).baseline = s.baseline := rfl
@[simp] theorem State.setI_fault : (s.setI a).fault = s.fault := rfl
@[simp] theorem State.setI_draws : (s.setI a).draws = s.draws := rfl
end setI

section setDt
variable (s : State) (b : Byte)
@[simp] theorem State.setDt_params : (s.setDt b).params = s.params := rfl
@[simp] theorem State.setDt_v : (s.setDt b).v = s.v := rfl
@[simp] theorem State.setDt_i : (s.setDt b).i = s.i := rfl
@[simp] theorem State.setDt_pc : (s.setDt b).pc = s.pc := rfl
@[simp] theorem State.setDt_stack : (s.setDt b).stack = s.stack := rfl
@[simp] theorem State.setDt_dt : (s.setDt b).dt = b := rfl
@[simp] theorem State.setDt_st : (s.setDt b).st = s.st := rfl
@[simp] theorem State.setDt_mem : (s.setDt b).mem = s.mem := rfl
@[simp] theorem State.setDt_disp : (s.setDt b).disp = s.disp := rfl
@[simp] theorem State.setDt_key : (s.setDt b).key = s.key := rfl
@[simp] theorem State.setDt_paused : (s.setDt b).paused = s.paused := rfl
@[simp] theorem State.setDt_running : (s.setDt b).running = s.running := rfl
@[simp] theorem State.setDt_ips : (s.setDt b).ips = s.ips := rfl
@[simp] theorem State.setDt_baseline : (s.setDt b).baseline = s.baseline := rfl
@[simp] theorem State.setDt_fault : (s.setDt b).fault = s.fault := rfl
@[simp] theorem State.setDt_draws : (s.setDt b).draws = s.draws := rfl
end setDt

section setSt
variable (s : State) (b : Byte)
@[simp] theorem State.setSt_params : (s.setSt b).params = s.params := rfl
@[simp] theorem State.setSt_v : (s.setSt b).v = s.v := rfl
@[simp] theorem State.setSt_i : (s.setSt b).i = s.i := rfl
@[simp] theorem State.setSt_pc : (s.setSt b).pc = s.pc := rfl
@[simp] theorem State.setSt_stack : (s.setSt b).stack = s.stack := rfl
@[simp] theorem State.setSt_dt : (s.setSt b).dt = s.dt := rfl
@[simp] theorem State.setSt_st : (s.setSt b).st = b := rfl
@[simp] theorem State.setSt_mem : (s.setSt b).mem = s.mem := rfl
@[simp] theorem State.setSt_disp : (s.setSt b).disp = s.disp := rfl
@[simp] theorem State.setSt_key : (s.setSt b).key = s.key := rfl
@[simp] theorem State.setSt_paused : (s.setSt b).paused = s.paused := rfl
@[simp] theorem State.setSt_running : (s.setSt b).running = s.running := rfl
@[simp] theorem State.setSt_ips : (s.setSt b).ips = s.ips := rfl
@[simp] theorem State.setSt_baseline : (s.setSt b).baseline = s.baseline := rfl
@[simp] theorem State.setSt_fault : (s.setSt b).fault = s.fault := rfl
@[simp] theorem State.setSt_draws : (s.setSt b).draws = s.draws := rfl
end setSt

section storeBytes
variable (s : State) (a : Nat) (bytes : List Byte)
@[simp] theorem State.storeBytes_params : (s.storeBytes a bytes).params = s.params := rfl
@[simp] theorem State.storeBytes_v : (s.storeBytes a bytes).v = s.v := rfl
@[simp] theorem State.storeBytes_i : (s.storeBytes a bytes).i = s.i := rfl
@[simp] theorem State.storeBytes_pc : (s.storeBytes a bytes).pc = s.pc := rfl
@[simp] theorem State.storeBytes_stack : (s.storeBytes a bytes).stack = s.stack := rfl
@[simp] theorem State.storeBytes_dt : (s.storeBytes a bytes).dt = s.dt := rfl
@[simp] theorem State.storeBytes_st : (s.storeBytes a bytes).st = s.st := rfl
@[simp] theorem State.storeBytes_mem : (s.storeBytes a bytes).mem = Memory.writeBytes s.params.font s.mem a bytes := rfl
@[simp] theorem State.storeBytes_disp : (s.storeBytes a bytes).disp = s.disp := rfl
@[simp] theorem State.storeBytes_key : (s.storeBytes a bytes).key = s.key := rfl
@[simp] theorem State.storeBytes_paused : (s.storeBytes a bytes).paused = s.paused := rfl
@[simp] theorem State.storeBytes_running : (s.storeBytes a bytes).running = s.running := rfl
@[simp] theorem State.storeBytes_ips : (s.storeBytes a bytes).ips = s.ips := rfl
@[simp] theorem State.storeBytes_baseline : (s.storeBytes a bytes).baseline = s.baseline := rfl
@[simp] theorem State.storeBytes_fault : (s.storeBytes a bytes).fault = s.fault := rfl
@[simp] theorem State.storeBytes_draws : (s.storeBytes a bytes).draws = s.draws := rfl
end storeBytes

section loadRange
variable (s : State) (a : Nat) (x : Nibble)
@[simp] theorem State.loadRange_params : (s.loadRange a x).params = s.params := rfl
@[simp] theorem State.loadRange_v : (s.loadRange a x).v = Vector.ofFn fun k : Fin 16 => if k.val ≤ x.val then s.readByte (a + k.val) else s.v[k] := rfl
@[simp] theorem State.loadRange_i : (s.loadRange a x).i = s.i := rfl
@[simp] theorem State.loadRange_pc : (s.loadRange a x).pc = s.pc := rfl
@[simp] theorem State.loadRange_stack : (s.loadRange a x).stack = s.stack := rfl
@[simp] theorem State.loadRange_dt : (s.loadRange a x).dt = s.dt := rfl
@[simp] theorem State.loadRange_st : (s.loadRange a x).st = s.st := rfl
@[simp] theorem State.loadRange_mem : (s.loadRange a x).mem = s.mem := rfl
@[simp] theorem State.loadRange_disp : (s.loadRange a x).disp = s.disp := rfl
@[simp] theorem State.loadRange_key : (s.loadRange a x).key = s.key := rfl
@[simp] theorem State.loadRange_paused : (s.loadRange a x).paused = s.paused := rfl
@[simp] theorem State.loadRange_running : (s.loadRange a x).running = s.running := rfl
@[simp] theorem State.loadRange_ips : (s.loadRange a x).ips = s.ips := rfl
@[simp] theorem State.loadRange_baseline : (s.loadRange a x).baseline = s.baseline := rfl
@[simp] theorem State.loadRange_fault : (s.loadRange a x).fault = s.fault := rfl
@[simp] theorem State.loadRange_draws : (s.loadRange a x).draws = s.draws := rfl
end loadRange

section push
variable (s : State) (a : Word)
@[simp] theorem State.push_params : (s.push a).params = s.params := rfl
@[simp] theorem State.push_v : (s.push a).v = s.v := rfl
@[simp] theorem State.push_i : (s.push a).i = s.i := rfl
@[simp] theorem State.push_pc : (s.push a).pc = s.pc := rfl
@[simp] theorem State.push_stack : (s.push a).stack = s.stack ++ [a] := rfl
@[simp] theorem State.push_dt : (s.push a).dt = s.dt := rfl
@[simp] theorem State.push_st : (s.push a).st = s.st := rfl
@[simp] theorem State.push_mem : (s.push a).mem = s.mem := rfl
@[simp] theorem State.push_disp : (s.push a).disp = s.disp := rfl
@[simp] theorem State.push_key : (s.push a).key = s.key := rfl
@[simp] theorem State.push_paused : (s.push a).paused = s.paused := rfl
@[simp] theorem State.push_running : (s.push a).running = s.running := rfl
@[simp] theorem State.push_ips : (s.push a).ips = s.ips := rfl
@[simp] theorem State.push_baseline : (s.push a).baseline = s.baseline := rfl
@[simp] theorem State.push_fault : (s.push a).fault = s.fault := rfl
@[simp] theorem State.push_draws : (s.push a).draws = s.draws := rfl
end push

section clearDisplay
variable (s : State)
@[simp] theorem State.clearDisplay_params : (s.clearDisplay).params = s.params := rfl
@[simp] theorem State.clearDisplay_v : (s.clearDisplay).v = s.v := rfl
@[simp] theorem State.clearDisplay_i : (s.clearDisplay).i = s.i := rfl
@[simp] theorem State.clearDisplay_pc : (s.clearDisplay).pc = s.pc := rfl
@[simp] theorem State.clearDisplay_stack : (s.clearDisplay).stack = s.stack := rfl
@[simp] theorem State.clearDisplay_dt : (s.clearDisplay).dt = s.dt := rfl
@[simp] theorem State.clearDisplay_st : (s.clearDisplay).st = s.st := rfl
@[simp] theorem State.clearDisplay_mem : (s.clearDisplay).mem = s.mem := rfl
@[simp] theorem State.clearDisplay_disp : (s.clearDisplay).disp = Display.clear := rfl
@[simp] theorem State.clearDisplay_key : (s.clearDisplay).key = s.key := rfl
@[simp] theorem State.clearDisplay_paused : (s.clearDisplay).paused = s.paused := rfl
@[simp] theorem State.clearDisplay_running : (s.clearDisplay).running = s.running := rfl
@[simp] theorem State.clearDisplay_ips : (s.clearDisplay).ips = s.ips := rfl
@[simp] theorem State.clearDisplay_baseline : (s.clearDisplay).baseline = s.baseline := rfl
@[simp] theorem State.clearDisplay_fault : (s.clearDisplay).fault = s.fault := rfl
@[simp] theorem State.clearDisplay_draws : (s.clearDisplay).draws = s.draws := rfl
end clearDisplay

section drawAt
variable (s : State) (ox oy : Nat) (bytes : List Byte)
@[simp] theorem State.drawAt_params : (s.drawAt ox oy bytes).params = s.params := rfl
@[simp] theorem State.drawAt_v : (s.drawAt ox oy bytes).v = s.v.set vf (collisionFlag (Display.drawSprite ox oy bytes s.disp).2) := rfl
@[simp] theorem State.drawAt_i : (s.drawAt ox oy bytes).i = s.i := rfl
@[simp] theorem State.drawAt_pc : (s.drawAt ox oy bytes).pc = s.pc := rfl
@[simp] theorem State.drawAt_stack : (s.drawAt ox oy bytes).stack = s.stack := rfl
@[simp] theorem State.drawAt_dt : (s.drawAt ox oy bytes).dt = s.dt := rfl
@[simp] theorem State.drawAt_st : (s.drawAt ox oy bytes).st = s.st := rfl
@[simp] theorem State.drawAt_mem : (s.drawAt ox oy bytes).mem = s.mem := rfl
@[simp] theorem State.drawAt_disp : (s.drawAt ox oy bytes).disp = (Display.drawSprite ox oy bytes s.disp).1 := rfl
@[simp] theorem State.drawAt_key : (s.drawAt ox oy bytes).key = s.key := rfl
@[simp] theorem State.drawAt_paused : (s.drawAt ox oy bytes).paused = s.paused := rfl
@[simp] theorem State.drawAt_running : (s.drawAt ox oy bytes).running = s.running := rfl
@[simp] theorem State.drawAt_ips : (s.drawAt ox oy bytes).ips = s.ips := rfl
@[simp] theorem State.drawAt_baseline : (s.drawAt ox oy bytes).baseline = s.baseline := rfl
@[simp] theorem State.drawAt_fault : (s.drawAt ox oy bytes).fault = s.fault := rfl
@[simp] theorem State.drawAt_draws : (s.drawAt ox oy bytes).draws = s.draws := rfl
end drawAt

section drawByte
variable (s : State)
@[simp] theorem State.drawByte_params : (s.drawByte.2).params = s.params := rfl
@[simp] theorem State.drawByte_v : (s.drawByte.2).v = s.v := rfl
@[simp] theorem State.drawByte_i : (s.drawByte.2).i = s.i := rfl
@[simp] theorem State.drawByte_pc : (s.drawByte.2).pc = s.pc := rfl
@[simp] theorem State.drawByte_stack : (s.drawByte.2).stack = s.stack := rfl
@[simp] theorem State.drawByte_dt : (s.drawByte.2).dt = s.dt := rfl
@[simp] theorem State.drawByte_st : (s.drawByte.2).st = s.st := rfl
@[simp] theorem State.drawByte_mem : (s.drawByte.2).mem = s.mem := rfl
@[simp] theorem State.drawByte_disp : (s.drawByte.2).disp = s.disp := rfl
@[simp] theorem State.drawByte_key : (s.drawByte.2).key = s.key := rfl
@[simp] theorem State.drawByte_paused : (s.drawByte.2).paused = s.paused := rfl
@[simp] theorem State.drawByte_running : (s.drawByte.2).running = s.running := rfl
@[simp] theorem State.drawByte_ips : (s.drawByte.2).ips = s.ips := rfl
@[simp] theorem State.drawByte_baseline : (s.drawByte.2).baseline = s.baseline := rfl
@[simp] theorem State.drawByte_fault : (s.drawByte.2).fault = s.fault := rfl
@[simp] theorem State.drawByte_draws : (s.drawByte.2).draws = s.draws + 1 := rfl
end drawByte

section faulted
variable (s : State) (c : FaultCause)
@[simp] theorem State.faulted_params : (s.faulted c).params = s.params := rfl
@[simp] theorem State.faulted_v : (s.faulted c).v = s.v := rfl
@[simp] theorem State.faulted_i : (s.faulted c).i = s.i := rfl
@[simp] theorem State.faulted_pc : (s.faulted c).pc = s.pc := rfl
@[simp] theorem State.faulted_stack : (s.faulted c).stack = s.stack := rfl
@[simp] theorem State.faulted_dt : (s.faulted c).dt = s.dt := rfl
@[simp] theorem State.faulted_st : (s.faulted c).st = s.st := rfl
@[simp] theorem State.faulted_mem : (s.faulted c).mem = s.mem := rfl
@[simp] theorem State.faulted_disp : (s.faulted c).disp = s.disp := rfl
@[simp] theorem State.faulted_key : (s.faulted c).key = s.key := rfl
@[simp] theorem State.faulted_paused : (s.faulted c).paused = s.paused := rfl
@[simp] theorem State.faulted_running : (s.faulted c).running = s.running := rfl
@[simp] theorem State.faulted_ips : (s.faulted c).ips = s.ips := rfl
@[simp] theorem State.faulted_baseline : (s.faulted c).baseline = s.baseline := rfl
@[simp] theorem State.faulted_fault : (s.faulted c).fault = { valid := true, cause := causeCode c, pc := s.pc } := rfl
@[simp] theorem State.faulted_draws : (s.faulted c).draws = s.draws := rfl
end faulted

section afterReset
variable (s : State)
@[simp] theorem State.afterReset_params : (s.afterReset).params = s.params := rfl
@[simp] theorem State.afterReset_v : (s.afterReset).v = Vector.replicate 16 0 := rfl
@[simp] theorem State.afterReset_i : (s.afterReset).i = 0 := rfl
@[simp] theorem State.afterReset_pc : (s.afterReset).pc = 0x200 := rfl
@[simp] theorem State.afterReset_stack : (s.afterReset).stack = [] := rfl
@[simp] theorem State.afterReset_dt : (s.afterReset).dt = 0 := rfl
@[simp] theorem State.afterReset_st : (s.afterReset).st = 0 := rfl
@[simp] theorem State.afterReset_mem : (s.afterReset).mem = [] := rfl
@[simp] theorem State.afterReset_disp : (s.afterReset).disp = Display.clear := rfl
@[simp] theorem State.afterReset_key : (s.afterReset).key = s.key := rfl
@[simp] theorem State.afterReset_paused : (s.afterReset).paused = false := rfl
@[simp] theorem State.afterReset_running : (s.afterReset).running = s.running := rfl
@[simp] theorem State.afterReset_ips : (s.afterReset).ips = s.ips := rfl
@[simp] theorem State.afterReset_baseline : (s.afterReset).baseline = s.baseline := rfl
@[simp] theorem State.afterReset_fault : (s.afterReset).fault = FaultReg.clear := rfl
@[simp] theorem State.afterReset_draws : (s.afterReset).draws = s.draws := rfl
end afterReset

section timerDecrement
variable (s : State)
@[simp] theorem State.timerDecrement_params : (s.timerDecrement).params = s.params := rfl
@[simp] theorem State.timerDecrement_v : (s.timerDecrement).v = s.v := rfl
@[simp] theorem State.timerDecrement_i : (s.timerDecrement).i = s.i := rfl
@[simp] theorem State.timerDecrement_pc : (s.timerDecrement).pc = s.pc := rfl
@[simp] theorem State.timerDecrement_stack : (s.timerDecrement).stack = s.stack := rfl
@[simp] theorem State.timerDecrement_dt : (s.timerDecrement).dt = countDown s.dt := rfl
@[simp] theorem State.timerDecrement_st : (s.timerDecrement).st = countDown s.st := rfl
@[simp] theorem State.timerDecrement_mem : (s.timerDecrement).mem = s.mem := rfl
@[simp] theorem State.timerDecrement_disp : (s.timerDecrement).disp = s.disp := rfl
@[simp] theorem State.timerDecrement_key : (s.timerDecrement).key = s.key := rfl
@[simp] theorem State.timerDecrement_paused : (s.timerDecrement).paused = s.paused := rfl
@[simp] theorem State.timerDecrement_running : (s.timerDecrement).running = s.running := rfl
@[simp] theorem State.timerDecrement_ips : (s.timerDecrement).ips = s.ips := rfl
@[simp] theorem State.timerDecrement_baseline : (s.timerDecrement).baseline = s.baseline := rfl
@[simp] theorem State.timerDecrement_fault : (s.timerDecrement).fault = s.fault := rfl
@[simp] theorem State.timerDecrement_draws : (s.timerDecrement).draws = s.draws := rfl
end timerDecrement

section setKey
variable (s : State) (w : KeyWrite)
@[simp] theorem State.setKey_params : (s.setKey w).params = s.params := rfl
@[simp] theorem State.setKey_v : (s.setKey w).v = s.v := rfl
@[simp] theorem State.setKey_i : (s.setKey w).i = s.i := rfl
@[simp] theorem State.setKey_pc : (s.setKey w).pc = s.pc := rfl
@[simp] theorem State.setKey_stack : (s.setKey w).stack = s.stack := rfl
@[simp] theorem State.setKey_dt : (s.setKey w).dt = s.dt := rfl
@[simp] theorem State.setKey_st : (s.setKey w).st = s.st := rfl
@[simp] theorem State.setKey_mem : (s.setKey w).mem = s.mem := rfl
@[simp] theorem State.setKey_disp : (s.setKey w).disp = s.disp := rfl
@[simp] theorem State.setKey_key : (s.setKey w).key = s.key.set w.k w.b := rfl
@[simp] theorem State.setKey_paused : (s.setKey w).paused = s.paused := rfl
@[simp] theorem State.setKey_running : (s.setKey w).running = s.running := rfl
@[simp] theorem State.setKey_ips : (s.setKey w).ips = s.ips := rfl
@[simp] theorem State.setKey_baseline : (s.setKey w).baseline = s.baseline := rfl
@[simp] theorem State.setKey_fault : (s.setKey w).fault = s.fault := rfl
@[simp] theorem State.setKey_draws : (s.setKey w).draws = s.draws := rfl
end setKey

section withProgram
variable (s : State) (bytes : List Byte)
@[simp] theorem State.withProgram_params : (s.withProgram bytes).params = s.params := rfl
@[simp] theorem State.withProgram_v : (s.withProgram bytes).v = s.v := rfl
@[simp] theorem State.withProgram_i : (s.withProgram bytes).i = s.i := rfl
@[simp] theorem State.withProgram_pc : (s.withProgram bytes).pc = 0x200 := rfl
@[simp] theorem State.withProgram_stack : (s.withProgram bytes).stack = s.stack := rfl
@[simp] theorem State.withProgram_dt : (s.withProgram bytes).dt = s.dt := rfl
@[simp] theorem State.withProgram_st : (s.withProgram bytes).st = s.st := rfl
@[simp] theorem State.withProgram_mem : (s.withProgram bytes).mem = Memory.writeBytes s.params.font (s.mem.clearFrom programBase) programBase bytes := rfl
@[simp] theorem State.withProgram_disp : (s.withProgram bytes).disp = s.disp := rfl
@[simp] theorem State.withProgram_key : (s.withProgram bytes).key = s.key := rfl
@[simp] theorem State.withProgram_paused : (s.withProgram bytes).paused = s.paused := rfl
@[simp] theorem State.withProgram_running : (s.withProgram bytes).running = s.running := rfl
@[simp] theorem State.withProgram_ips : (s.withProgram bytes).ips = s.ips := rfl
@[simp] theorem State.withProgram_baseline : (s.withProgram bytes).baseline = s.baseline := rfl
@[simp] theorem State.withProgram_fault : (s.withProgram bytes).fault = s.fault := rfl
@[simp] theorem State.withProgram_draws : (s.withProgram bytes).draws = s.draws := rfl
end withProgram

section skipIf
variable (s : State) (c : Bool)
@[simp] theorem State.skipIf_params : (s.skipIf c).params = s.params := by cases c <;> rfl
@[simp] theorem State.skipIf_v : (s.skipIf c).v = s.v := by cases c <;> rfl
@[simp] theorem State.skipIf_i : (s.skipIf c).i = s.i := by cases c <;> rfl
@[simp] theorem State.skipIf_pc : (s.skipIf c).pc = if c then s.pc + 2 else s.pc := by cases c <;> rfl
@[simp] theorem State.skipIf_stack : (s.skipIf c).stack = s.stack := by cases c <;> rfl
@[simp] theorem State.skipIf_dt : (s.skipIf c).dt = s.dt := by cases c <;> rfl
@[simp] theorem State.skipIf_st : (s.skipIf c).st = s.st := by cases c <;> rfl
@[simp] theorem State.skipIf_mem : (s.skipIf c).mem = s.mem := by cases c <;> rfl
@[simp] theorem State.skipIf_disp : (s.skipIf c).disp = s.disp := by cases c <;> rfl
@[simp] theorem State.skipIf_key : (s.skipIf c).key = s.key := by cases c <;> rfl
@[simp] theorem State.skipIf_paused : (s.skipIf c).paused = s.paused := by cases c <;> rfl
@[simp] theorem State.skipIf_running : (s.skipIf c).running = s.running := by cases c <;> rfl
@[simp] theorem State.skipIf_ips : (s.skipIf c).ips = s.ips := by cases c <;> rfl
@[simp] theorem State.skipIf_baseline : (s.skipIf c).baseline = s.baseline := by cases c <;> rfl
@[simp] theorem State.skipIf_fault : (s.skipIf c).fault = s.fault := by cases c <;> rfl
@[simp] theorem State.skipIf_draws : (s.skipIf c).draws = s.draws := by cases c <;> rfl
end skipIf

section setKeys
variable (s : State) (ws : List KeyWrite)
@[simp] theorem State.setKeys_params : (s.setKeys ws).params = s.params := by
  induction ws generalizing s with
  | nil => rfl
  | cons w ws ih => exact ih (s.setKey w)
@[simp] theorem State.setKeys_v : (s.setKeys ws).v = s.v := by
  induction ws generalizing s with
  | nil => rfl
  | cons w ws ih => exact ih (s.setKey w)
@[simp] theorem State.setKeys_i : (s.setKeys ws).i = s.i := by
  induction ws generalizing s with
  | nil => rfl
  | cons w ws ih => exact ih (s.setKey w)
@[simp] theorem State.setKeys_pc : (s.setKeys ws).pc = s.pc := by
  induction ws generalizing s with
  | nil => rfl
  | cons w ws ih => exact ih (s.setKey w)
@[simp] theorem State.setKeys_stack : (s.setKeys ws).stack = s.stack := by
  induction ws generalizing s with
  | nil => rfl
  | cons w ws ih => exact ih (s.setKey w)
@[simp] theorem State.setKeys_dt : (s.setKeys ws).dt = s.dt := by
  induction ws generalizing s with
  | nil => rfl
  | cons w ws ih => exact ih (s.setKey w)
@[simp] theorem State.setKeys_st : (s.setKeys ws).st = s.st := by
  induction ws generalizing s with
  | nil => rfl
  | cons w ws ih => exact ih (s.setKey w)
@[simp] theorem State.setKeys_mem : (s.setKeys ws).mem = s.mem := by
  induction ws generalizing s with
  | nil => rfl
  | cons w ws ih => exact ih (s.setKey w)
@[simp] theorem State.setKeys_disp : (s.setKeys ws).disp = s.disp := by
  induction ws generalizing s with
  | nil => rfl
  | cons w ws ih => exact ih (s.setKey w)
@[simp] theorem State.setKeys_paused : (s.setKeys ws).paused = s.paused := by
  induction ws generalizing s with
  | nil => rfl
  | cons w ws ih => exact ih (s.setKey w)
@[simp] theorem State.setKeys_running : (s.setKeys ws).running = s.running := by
  induction ws generalizing s with
  | nil => rfl
  | cons w ws ih => exact ih (s.setKey w)
@[simp] theorem State.setKeys_ips : (s.setKeys ws).ips = s.ips := by
  induction ws generalizing s with
  | nil => rfl
  | cons w ws ih => exact ih (s.setKey w)
@[simp] theorem State.setKeys_baseline : (s.setKeys ws).baseline = s.baseline := by
  induction ws generalizing s with
  | nil => rfl
  | cons w ws ih => exact ih (s.setKey w)
@[simp] theorem State.setKeys_fault : (s.setKeys ws).fault = s.fault := by
  induction ws generalizing s with
  | nil => rfl
  | cons w ws ih => exact ih (s.setKey w)
@[simp] theorem State.setKeys_draws : (s.setKeys ws).draws = s.draws := by
  induction ws generalizing s with
  | nil => rfl
  | cons w ws ih => exact ih (s.setKey w)
end setKeys

section timerBranch
variable (now elapsed : Time) (s : State)
@[simp] theorem timerBranch_params : (timerBranch now elapsed s).params = s.params := by
  unfold timerBranch; split <;> rfl
@[simp] theorem timerBranch_v : (timerBranch now elapsed s).v = s.v := by
  unfold timerBranch; split <;> rfl
@[simp] theorem timerBranch_i : (timerBranch now elapsed s).i = s.i := by
  unfold timerBranch; split <;> rfl
@[simp] theorem timerBranch_pc : (timerBranch now elapsed s).pc = s.pc := by
  unfold timerBranch; split <;> rfl
@[simp] theorem timerBranch_stack : (timerBranch now elapsed s).stack = s.stack := by
  unfold timerBranch; split <;> rfl
@[simp] theorem timerBranch_mem : (timerBranch now elapsed s).mem = s.mem := by
  unfold timerBranch; split <;> rfl
@[simp] theorem timerBranch_disp : (timerBranch now elapsed s).disp = s.disp := by
  unfold timerBranch; split <;> rfl
@[simp] theorem timerBranch_key : (timerBranch now elapsed s).key = s.key := by
  unfold timerBranch; split <;> rfl
@[simp] theorem timerBranch_paused : (timerBranch now elapsed s).paused = s.paused := by
  unfold timerBranch; split <;> rfl
@[simp] theorem timerBranch_running : (timerBranch now elapsed s).running = s.running := by
  unfold timerBranch; split <;> rfl
@[simp] theorem timerBranch_ips : (timerBranch now elapsed s).ips = s.ips := by
  unfold timerBranch; split <;> rfl
@[simp] theorem timerBranch_fault : (timerBranch now elapsed s).fault = s.fault := by
  unfold timerBranch; split <;> rfl
@[simp] theorem timerBranch_draws : (timerBranch now elapsed s).draws = s.draws := by
  unfold timerBranch; split <;> rfl
end timerBranch

end Sys2Proof.Machine
end

