-- ==== Sys2Proof/Laws/Ops.lean ====
section
/-! SUPPORT. What each shared operation can do, said once. -/

namespace Sys2Proof.Machine

/-! ## Registers -/

/-- A register read after a register write. -/
@[simp] theorem State.getV_setV (s : State) (x j : Nibble) (b : Byte) :
    (s.setV x b).getV j = if j = x then b else s.getV j := by
  unfold State.getV State.setV
  by_cases h : j = x
  · subst h; simp
  · have : x.val ≠ j.val := fun e => h (Fin.ext e.symm)
    simp [this, h]

/-- An update that keeps the register file keeps every register. -/
theorem State.getV_congr {s t : State} (h : t.v = s.v) (j : Nibble) : t.getV j = s.getV j := by
  unfold State.getV; rw [h]

@[simp] theorem State.getV_fetched (s : State) (j : Nibble) : s.fetched.getV j = s.getV j := rfl

@[simp] theorem State.getV_setPc (s : State) (a : Word) (j : Nibble) : (s.setPc a).getV j = s.getV j := rfl

@[simp] theorem State.getV_skipIf (s : State) (c : Bool) (j : Nibble) : (s.skipIf c).getV j = s.getV j :=
  State.getV_congr (by simp) j

@[simp] theorem State.getV_push (s : State) (a : Word) (j : Nibble) : (s.push a).getV j = s.getV j := rfl

@[simp] theorem State.getV_setI (s : State) (a : Word) (j : Nibble) : (s.setI a).getV j = s.getV j := rfl

@[simp] theorem State.getV_setDt (s : State) (b : Byte) (j : Nibble) : (s.setDt b).getV j = s.getV j := rfl

@[simp] theorem State.getV_setSt (s : State) (b : Byte) (j : Nibble) : (s.setSt b).getV j = s.getV j := rfl

@[simp] theorem State.getV_storeBytes (s : State) (a : Nat) (bytes : List Byte) (j : Nibble) :
    (s.storeBytes a bytes).getV j = s.getV j := rfl

@[simp] theorem State.getV_clearDisplay (s : State) (j : Nibble) : s.clearDisplay.getV j = s.getV j := rfl

@[simp] theorem State.getV_drawByte (s : State) (j : Nibble) : s.drawByte.2.getV j = s.getV j := rfl

/-- A draw writes VF and no other register (43_display.md R162). -/
@[simp] theorem State.getV_drawAt (s : State) (ox oy : Nat) (bytes : List Byte) (j : Nibble) :
    (s.drawAt ox oy bytes).getV j =
      if j = vf then collisionFlag (Display.drawSprite ox oy bytes s.disp).2 else s.getV j := by
  unfold State.drawAt
  rw [State.getV_setV]
  rfl

/-- What Fx65 leaves in each register (42_index_memory.md R145). -/
@[simp] theorem State.getV_loadRange (s : State) (a : Nat) (x j : Nibble) :
    (s.loadRange a x).getV j = if j.val ≤ x.val then s.readByte (a + j.val) else s.getV j := by
  simp [State.getV, State.loadRange]

/-! ## Memory -/

/-- An update that keeps memory and the font keeps every byte. -/
theorem State.readByte_congr {s t : State} (hm : t.mem = s.mem) (hp : t.params = s.params) (a : Nat) :
    t.readByte a = s.readByte a := by
  unfold State.readByte; rw [hm, hp]

@[simp] theorem State.readByte_fetched (s : State) (a : Nat) : s.fetched.readByte a = s.readByte a := rfl

@[simp] theorem State.readByte_setV (s : State) (x : Nibble) (b : Byte) (a : Nat) :
    (s.setV x b).readByte a = s.readByte a := rfl

/-- A byte outside those stored reads as before. -/
theorem State.readByte_storeBytes_outside (s : State) (a a' : Nat) (bytes : List Byte)
    (h : a' < a ∨ a + bytes.length ≤ a') : (s.storeBytes a bytes).readByte a' = s.readByte a' :=
  Memory.read_writeBytes_outside _ bytes s.mem a a' h

/-- The bytes stored read back. -/
theorem State.readByte_storeBytes_inside (s : State) (a k : Nat) (bytes : List Byte) (h : k < bytes.length) :
    (s.storeBytes a bytes).readByte (a + k) = bytes[k] :=
  Memory.read_writeBytes_inside _ bytes s.mem a k h

@[simp] theorem State.readBytes_length (s : State) (a n : Nat) : (s.readBytes a n).length = n := by
  simp [State.readBytes]

@[simp] theorem State.readBytes_getElem (s : State) (a n k : Nat) (h : k < (s.readBytes a n).length) :
    (s.readBytes a n)[k] = s.readByte (a + k) := by
  simp [State.readBytes]

/-! ## Stack -/

/-- A pop fails exactly on an empty stack (40_flow.md R100). -/
theorem State.pop_eq_none (s : State) : s.pop = none ↔ s.stack = [] := by
  unfold State.pop
  cases h : s.stack.getLast? with
  | none => simpa using h
  | some a =>
    have : s.stack ≠ [] := by rintro e; simp [e] at h
    simp [this]

/-- What a pop answers: the last entry, and the state without it. -/
theorem State.pop_eq_some (s t : State) (a : Word) :
    s.pop = some (a, t) ↔ s.stack = t.stack ++ [a] ∧ t = { s with stack := t.stack } := by
  unfold State.pop
  cases h : s.stack.getLast? with
  | none =>
    have hs : s.stack = [] := List.getLast?_eq_none_iff.1 h
    constructor
    · intro e; cases e
    · rintro ⟨e, -⟩; rw [hs] at e; simp at e
  | some b =>
    obtain ⟨ys, hys⟩ := List.getLast?_eq_some_iff.1 h
    constructor
    · intro e
      simp only [Option.some.injEq, Prod.mk.injEq] at e
      obtain ⟨rfl, rfl⟩ := e
      refine ⟨?_, rfl⟩
      show s.stack = s.stack.dropLast ++ [b]
      rw [hys, List.dropLast_concat]
    · rintro ⟨e, ht⟩
      have e' := e
      rw [hys] at e'
      obtain ⟨e1, e2⟩ := List.append_inj' e' rfl
      have hd : s.stack.dropLast = t.stack := by rw [e, List.dropLast_concat]
      have hb : b = a := by injection e2
      rw [hd, hb, ← ht]

/-- The stack is full exactly when it holds STACK_DEPTH entries (40_flow.md R102). -/
theorem State.stackFull_iff (s : State) : s.stackFull = true ↔ s.params.stackDepth = some s.stack.length := by
  unfold State.stackFull
  cases s.params.stackDepth with
  | none => simp
  | some d => simp only [beq_iff_eq, Option.some.injEq]; exact eq_comm

/-! ## Input -/

/-- A byte names a key exactly when it is at most 0xF (44_input_timers.md R185). -/
theorem State.keyAt_eq_none (s : State) (b : Byte) : s.keyAt b = none ↔ b.toNat > 0xF := by
  unfold State.keyAt
  simp
  omega

theorem State.keyAt_of_le (s : State) (b : Byte) (h : b.toNat < 16) : s.keyAt b = some s.key[b.toNat] := by
  unfold State.keyAt; simp [h]

/-! ## Bounds -/

@[simp] theorem inBounds_iff (last : Nat) : inBounds last = true ↔ last ≤ 0xFFF := by simp [inBounds]

theorem spriteInBounds_iff (i : Word) (n : Nibble) :
    spriteInBounds i n = true ↔ n.val = 0 ∨ i.toNat + n.val - 1 ≤ 0xFFF := by
  simp only [spriteInBounds, effAddr, Bool.or_eq_true, beq_iff_eq, inBounds_iff]
  omega

@[simp] theorem effAddr_eq (i : Word) (k : Nat) : effAddr i k = i.toNat + k := rfl

@[simp] theorem bcdDigits_length (b : Byte) : (bcdDigits b).length = 3 := rfl

end Sys2Proof.Machine
end

