-- ==== Sys2Proof/Laws/Step.lean ====
section
/-! SUPPORT. What a step can do, and how outcomes are chained. -/

namespace Sys2Proof.Machine

@[simp] theorem bindOutcome_next {α β : Type} (a : α) (k : α → Host.Outcome β Fault Refusal) :
    bindOutcome (.next a) k = k a := rfl

/-- A chain answers a next state exactly when both of its parts do. -/
theorem bindOutcome_eq_next {α β : Type} (o : Host.Outcome α Fault Refusal) (k : α → Host.Outcome β Fault Refusal) (b : β) :
    bindOutcome o k = .next b ↔ ∃ a, o = .next a ∧ k a = .next b := by
  cases o <;> simp [bindOutcome]

/-- The two ways a load, store or draw ends: in bounds with its effect, or with the fault entered. -/
theorem guarded_cases {c : Prop} [Decidable c] {t : State} {f : FaultCause} {s : State} {r : State}
    (h : (if c then .next t else raiseFault f s : StepOutcome) = .next r) : (c ∧ r = t) ∨ (¬c ∧ r = s.faulted f) := by
  by_cases hc : c
  · rw [if_pos hc] at h; exact .inl ⟨hc, by injection h with h; exact h.symm⟩
  · rw [if_neg hc] at h; unfold raiseFault at h; exact .inr ⟨hc, by injection h with h; exact h.symm⟩

/-- Everything a step can do (60_exceptions.md R230): nothing while faulted, else a fetch fault, else the decoded instruction. -/
theorem step_cases (s : State) :
    (s.fault.valid = true ∧ step s = .next s) ∨
    (s.fault.valid = false ∧ 0xFFE < s.pc.toNat ∧ step s = .next (s.faulted .boundsFetch)) ∨
    (s.fault.valid = false ∧ s.pc.toNat ≤ 0xFFE ∧ step s = exec (decodeWord s.fetchWord) s) := by
  unfold step State.canFetch raiseFault
  cases hv : s.fault.valid with
  | true => simp
  | false =>
    by_cases hp : s.pc.toNat ≤ 0xFFE
    · simp [hp]
    · simp [hp]; omega

/-- Key writes change the input state and nothing else. -/
theorem State.setKeys_eq (s : State) (ws : List KeyWrite) : s.setKeys ws = { s with key := (s.setKeys ws).key } := by
  induction ws generalizing s with
  | nil => rfl
  | cons w ws ih => exact ih (s.setKey w)

@[simp] theorem State.setKeys_nil (s : State) : s.setKeys [] = s := rfl

end Sys2Proof.Machine
end

