-- ==== Sys2Proof/Laws/Frames.lean ====
section
/-! SUPPORT. Frames, runs of steps, and the small laws of fetch, timers, loading and reset. -/

namespace Sys2Proof.Machine

/-! ## Frames -/

/-- A frame from the fields themselves: one fact for each piece it does not list. -/
theorem KeepsAllBut.of_pieces {changed : List Piece} {s t : State}
    (h : ∀ p ∈ [Piece.params, .regs, .index, .pc, .stack, .dt, .st, .mem, .disp, .key, .paused, .running, .ips, .baseline,
      .fault, .draws], p ∉ changed → Unchanged s t p) : KeepsAllBut changed s t :=
  fun p hp => h p (by cases p <;> decide) hp

theorem Unchanged.refl (s : State) (p : Piece) : Unchanged s s p := by
  cases p <;> simp [Unchanged]

/-- A state that is the same keeps every piece. -/
theorem KeepsAllBut.refl (changed : List Piece) (s : State) : KeepsAllBut changed s s := fun p _ => Unchanged.refl s p

theorem Unchanged.trans {s t u : State} {p : Piece} (h1 : Unchanged s t p) (h2 : Unchanged t u p) : Unchanged s u p := by
  cases p
  case regs | mem => all_goals exact fun a => (h2 a).trans (h1 a)
  all_goals exact Eq.trans h2 h1

/-- Two frames one after the other. -/
theorem KeepsAllBut.trans {changed : List Piece} {s t u : State} (h1 : KeepsAllBut changed s t) (h2 : KeepsAllBut changed t u) :
    KeepsAllBut changed s u := fun p hp => (h1 p hp).trans (h2 p hp)

/-! ## Runs of steps -/

@[simp] theorem runFor_zero (s : State) : runFor 0 s = .next s := rfl

theorem runFor_succ {s t : State} (n : Nat) (h : step s = .next t) : runFor (n + 1) s = runFor n t := by
  rw [runFor, h]; rfl

/-! ## Operands and fetch -/

@[simp] theorem zext16_toNat (nnn : Addr) : (zext16 nnn).toNat = nnn.toNat := by
  have := nnn.isLt
  simp [zext16]; omega

/-- The two bytes of a word, high byte first, make the word (20_memory.md R52). -/
theorem wordOfBytes_halves (w : Word) : wordOfBytes (w.extractLsb 15 8) (w.extractLsb 7 0) = w := by
  have := w.isLt
  apply BitVec.eq_of_toNat_eq
  simp only [wordOfBytes, BitVec.toNat_append, BitVec.extractLsb_toNat, Nat.shiftLeft_eq, Nat.shiftRight_eq_div_pow]
  rw [← Nat.shiftLeft_eq, ← Nat.shiftLeft_add_eq_or_of_lt (by omega), Nat.shiftLeft_eq]
  omega

/-- The fetch reads memory and PC only. -/
theorem State.fetchWord_congr {s t : State} (hpc : t.pc = s.pc) (hm : ∀ a, t.readByte a = s.readByte a) :
    t.fetchWord = s.fetchWord := by
  unfold State.fetchWord; rw [hpc, hm, hm]

/-- The cause codes tell the causes apart (60_exceptions.md R212). -/
theorem causeCode_injective {c d : FaultCause} (h : causeCode c = causeCode d) : c = d := by
  cases c <;> cases d <;> first | rfl | (revert h; decide)

/-! ## Timers and keys -/

/-- One count, never below zero (60_exceptions.md R220). -/
theorem countDown_toNat (b : Byte) : (countDown b).toNat = b.toNat - 1 := by
  have := b.isLt
  unfold countDown
  split
  · rw [BitVec.toNat_sub]; simp; omega
  · omega

/-- `k ≤ ips * elapsed / 1000 < k + 1` says that `k` is the floor the tick takes (60_exceptions.md R232). -/
theorem cyclesToRun_eq {ips : Nat} {elapsed : Time} {k : Nat} (h1 : (k : Rat) ≤ ips * elapsed / 1000)
    (h2 : ips * elapsed / 1000 < (k : Rat) + 1) : cyclesToRun ips elapsed = k := by
  unfold cyclesToRun
  have : ((ips : Rat) * elapsed / 1000).floor = (k : Int) := by
    rw [show ((ips : Rat) * elapsed / 1000).floor = ⌊(ips : Rat) * elapsed / 1000⌋ from rfl, Int.floor_eq_iff]
    exact ⟨by exact_mod_cast h1, by exact_mod_cast h2⟩
  rw [this]; rfl

@[simp] theorem State.getV_setKeys (s : State) (ws : List KeyWrite) (x : Nibble) : (s.setKeys ws).getV x = s.getV x :=
  State.getV_congr (by simp) x

@[simp] theorem State.readByte_setKeys (s : State) (ws : List KeyWrite) (a : Nat) : (s.setKeys ws).readByte a = s.readByte a :=
  State.readByte_congr (by simp) (by simp) a

@[simp] theorem getV_timerBranch (now elapsed : Time) (s : State) (x : Nibble) : (timerBranch now elapsed s).getV x = s.getV x :=
  State.getV_congr (by simp) x

@[simp] theorem readByte_timerBranch (now elapsed : Time) (s : State) (a : Nat) :
    (timerBranch now elapsed s).readByte a = s.readByte a :=
  State.readByte_congr (by simp) (by simp) a

/-- A key's level after a write. -/
@[simp] theorem State.key_setKey (s : State) (w : KeyWrite) (j : Nibble) :
    (s.setKey w).key[j] = if j = w.k then w.b else s.key[j] := by
  by_cases h : j = w.k
  · subst h; simp [State.setKey]
  · have : w.k.val ≠ j.val := fun e => h (Fin.ext e.symm)
    simp [State.setKey, this, h]

/-- Writes one after another. -/
theorem State.setKeys_append (s : State) (ws vs : List KeyWrite) : s.setKeys (ws ++ vs) = (s.setKeys ws).setKeys vs :=
  List.foldl_append

/-- A key that no write names keeps its level (60_exceptions.md R241). -/
theorem State.key_setKeys_of_not_named (s : State) (ws : List KeyWrite) (j : Nibble) (h : ∀ w ∈ ws, w.k ≠ j) :
    (s.setKeys ws).key[j] = s.key[j] := by
  induction ws generalizing s with
  | nil => rfl
  | cons w ws ih =>
    rw [List.forall_mem_cons] at h
    exact (ih (s.setKey w) h.2).trans (by rw [State.key_setKey, if_neg (Ne.symm h.1)])

/-- Key writes read the state only through the keys. -/
theorem State.key_setKeys_congr {s t : State} (h : t.key = s.key) (ws : List KeyWrite) :
    (t.setKeys ws).key = (s.setKeys ws).key := by
  induction ws generalizing s t with
  | nil => exact h
  | cons w ws ih => exact ih (by simp [State.setKey, h])

/-! ## Memory after a load and after a reset -/

theorem State.readByte_withProgram_inside (s : State) (bytes : List Byte) (k : Nat) (h : k < bytes.length) :
    (s.withProgram bytes).readByte (programBase + k) = bytes[k] :=
  Memory.read_writeBytes_inside _ bytes _ _ k h

theorem State.readByte_withProgram_above (s : State) (bytes : List Byte) (a : Nat) (h : programBase + bytes.length ≤ a) :
    (s.withProgram bytes).readByte a = 0 := by
  refine (Memory.read_writeBytes_outside _ bytes _ programBase a (.inr h)).trans ?_
  rw [Memory.read_clearFrom, if_neg (by omega)]
  exact Memory.unlisted_eq_zero _ a (by unfold fontBase; unfold programBase at h; omega)

theorem State.readByte_withProgram_below (s : State) (bytes : List Byte) (a : Nat) (h : a < programBase) :
    (s.withProgram bytes).readByte a = s.readByte a := by
  refine (Memory.read_writeBytes_outside _ bytes _ programBase a (.inl h)).trans ?_
  rw [Memory.read_clearFrom, if_pos h]
  rfl

@[simp] theorem State.readByte_afterReset (s : State) (a : Nat) : s.afterReset.readByte a = Memory.unlisted s.params.font a := rfl

end Sys2Proof.Machine
end

