-- ==== Sys2Proof/Laws/PerInstr.lean ====
section
/-! SUPPORT. One lemma for each instruction: its encoding belongs to its row of the opcode map (30_encoding.md R86). -/

namespace Sys2Proof

/-- The row of the opcode map an instruction belongs to. The no-op has none (R200). -/
def rowOf : Instr → Option OpcodeRow
  | .cls => some ⟨0xFFFF, 0x00E0⟩
  | .ret => some ⟨0xFFFF, 0x00EE⟩
  | .jp _ => some ⟨0xF000, 0x1000⟩
  | .call _ => some ⟨0xF000, 0x2000⟩
  | .seImm _ _ => some ⟨0xF000, 0x3000⟩
  | .sneImm _ _ => some ⟨0xF000, 0x4000⟩
  | .seReg _ _ => some ⟨0xF00F, 0x5000⟩
  | .ldImm _ _ => some ⟨0xF000, 0x6000⟩
  | .addImm _ _ => some ⟨0xF000, 0x7000⟩
  | .ldReg _ _ => some ⟨0xF00F, 0x8000⟩
  | .orReg _ _ => some ⟨0xF00F, 0x8001⟩
  | .andReg _ _ => some ⟨0xF00F, 0x8002⟩
  | .xorReg _ _ => some ⟨0xF00F, 0x8003⟩
  | .addReg _ _ => some ⟨0xF00F, 0x8004⟩
  | .subReg _ _ => some ⟨0xF00F, 0x8005⟩
  | .ldI _ => some ⟨0xF000, 0xA000⟩
  | .rnd _ _ => some ⟨0xF000, 0xC000⟩
  | .drw _ _ _ => some ⟨0xF000, 0xD000⟩
  | .skp _ => some ⟨0xF0FF, 0xE09E⟩
  | .sknp _ => some ⟨0xF0FF, 0xE0A1⟩
  | .ldVxDt _ => some ⟨0xF0FF, 0xF007⟩
  | .ldDtVx _ => some ⟨0xF0FF, 0xF015⟩
  | .ldStVx _ => some ⟨0xF0FF, 0xF018⟩
  | .addI _ => some ⟨0xF0FF, 0xF01E⟩
  | .ldF _ => some ⟨0xF0FF, 0xF029⟩
  | .ldB _ => some ⟨0xF0FF, 0xF033⟩
  | .storeRegs _ => some ⟨0xF0FF, 0xF055⟩
  | .loadRegs _ => some ⟨0xF0FF, 0xF065⟩
  | .noop _ => none

/-- A well-formed instruction's word is selected by its row, and a no-op's by none. -/
def Laws.RowOfEncoding.Statement (i : Instr) : Prop :=
  i.wellFormed = true → (rowOf i).elim (isUnassigned (encode i)) (fun r => r.selects (encode i)) = true

namespace Laws.RowOfEncoding

theorem cls : Statement (.cls) :=
  fun _ => rfl

theorem ret : Statement (.ret) :=
  fun _ => rfl

theorem jp (nnn : Addr) : Statement (.jp nnn) :=
  fun _ => beq_iff_eq.2 ((selects_op _ 0x1).2 (by simp [encode]))

theorem call (nnn : Addr) : Statement (.call nnn) :=
  fun _ => beq_iff_eq.2 ((selects_op _ 0x2).2 (by simp [encode]))

theorem seImm (x : Nibble) (nn : Byte) : Statement (.seImm x nn) :=
  fun _ => beq_iff_eq.2 ((selects_op _ 0x3).2 (by simp [encode]))

theorem sneImm (x : Nibble) (nn : Byte) : Statement (.sneImm x nn) :=
  fun _ => beq_iff_eq.2 ((selects_op _ 0x4).2 (by simp [encode]))

theorem seReg (x : Nibble) (y : Nibble) : Statement (.seReg x y) :=
  fun _ => beq_iff_eq.2 ((selects_op_n _ 0x5 0).2 (by simp [encode]))

theorem ldImm (x : Nibble) (nn : Byte) : Statement (.ldImm x nn) :=
  fun _ => beq_iff_eq.2 ((selects_op _ 0x6).2 (by simp [encode]))

theorem addImm (x : Nibble) (nn : Byte) : Statement (.addImm x nn) :=
  fun _ => beq_iff_eq.2 ((selects_op _ 0x7).2 (by simp [encode]))

theorem ldReg (x : Nibble) (y : Nibble) : Statement (.ldReg x y) :=
  fun _ => beq_iff_eq.2 ((selects_op_n _ 0x8 0).2 (by simp [encode]))

theorem orReg (x : Nibble) (y : Nibble) : Statement (.orReg x y) :=
  fun _ => beq_iff_eq.2 ((selects_op_n _ 0x8 1).2 (by simp [encode]))

theorem andReg (x : Nibble) (y : Nibble) : Statement (.andReg x y) :=
  fun _ => beq_iff_eq.2 ((selects_op_n _ 0x8 2).2 (by simp [encode]))

theorem xorReg (x : Nibble) (y : Nibble) : Statement (.xorReg x y) :=
  fun _ => beq_iff_eq.2 ((selects_op_n _ 0x8 3).2 (by simp [encode]))

theorem addReg (x : Nibble) (y : Nibble) : Statement (.addReg x y) :=
  fun _ => beq_iff_eq.2 ((selects_op_n _ 0x8 4).2 (by simp [encode]))

theorem subReg (x : Nibble) (y : Nibble) : Statement (.subReg x y) :=
  fun _ => beq_iff_eq.2 ((selects_op_n _ 0x8 5).2 (by simp [encode]))

theorem ldI (nnn : Addr) : Statement (.ldI nnn) :=
  fun _ => beq_iff_eq.2 ((selects_op _ 0xA).2 (by simp [encode]))

theorem rnd (x : Nibble) (nn : Byte) : Statement (.rnd x nn) :=
  fun _ => beq_iff_eq.2 ((selects_op _ 0xC).2 (by simp [encode]))

theorem drw (x : Nibble) (y : Nibble) (n : Nibble) : Statement (.drw x y n) :=
  fun _ => beq_iff_eq.2 ((selects_op _ 0xD).2 (by simp [encode]))

theorem skp (x : Nibble) : Statement (.skp x) :=
  fun _ => beq_iff_eq.2 ((selects_op_nn _ 0xE 0x9E).2 (by simp [encode]))

theorem sknp (x : Nibble) : Statement (.sknp x) :=
  fun _ => beq_iff_eq.2 ((selects_op_nn _ 0xE 0xA1).2 (by simp [encode]))

theorem ldVxDt (x : Nibble) : Statement (.ldVxDt x) :=
  fun _ => beq_iff_eq.2 ((selects_op_nn _ 0xF 0x07).2 (by simp [encode]))

theorem ldDtVx (x : Nibble) : Statement (.ldDtVx x) :=
  fun _ => beq_iff_eq.2 ((selects_op_nn _ 0xF 0x15).2 (by simp [encode]))

theorem ldStVx (x : Nibble) : Statement (.ldStVx x) :=
  fun _ => beq_iff_eq.2 ((selects_op_nn _ 0xF 0x18).2 (by simp [encode]))

theorem addI (x : Nibble) : Statement (.addI x) :=
  fun _ => beq_iff_eq.2 ((selects_op_nn _ 0xF 0x1E).2 (by simp [encode]))

theorem ldF (x : Nibble) : Statement (.ldF x) :=
  fun _ => beq_iff_eq.2 ((selects_op_nn _ 0xF 0x29).2 (by simp [encode]))

theorem ldB (x : Nibble) : Statement (.ldB x) :=
  fun _ => beq_iff_eq.2 ((selects_op_nn _ 0xF 0x33).2 (by simp [encode]))

theorem storeRegs (x : Nibble) : Statement (.storeRegs x) :=
  fun _ => beq_iff_eq.2 ((selects_op_nn _ 0xF 0x55).2 (by simp [encode]))

theorem loadRegs (x : Nibble) : Statement (.loadRegs x) :=
  fun _ => beq_iff_eq.2 ((selects_op_nn _ 0xF 0x65).2 (by simp [encode]))

theorem noop (w : Word) : Statement (.noop w) := fun h => h

end Laws.RowOfEncoding

end Sys2Proof
end

