-- ==== Sys2Proof/Tests/Slice0.lean ====
section
/-! SUPPORT. Tests of one step against the vectors of spec/95_test_vectors.md (cited by their ids), and a witness for the hypotheses of
each statement of Certificates/Slice0/Obligations.lean. -/

namespace Sys2Proof.Machine.Tests

/-- `s` with the word `w` at its PC. -/
def placed (w : Nat) (s : State) : State := s.withFetchWord 16 w

/-- The step from `s` answers a next state that meets `p`. -/
def steps (s : State) (p : State → Bool) : Bool :=
  match step s with
  | .next t => p t
  | .fault _ => false
  | .refused _ => false

/-- A chain of outcomes ends in a next state that meets `p`. -/
def ends (o : StepOutcome) (p : State → Bool) : Bool :=
  match o with
  | .next t => p t
  | .fault _ => false
  | .refused _ => false

/-- The fault register after a fault with this code at this PC (R213). -/
def faultAt (code : BitVec 3) (pc : Word) : FaultReg := { valid := true, cause := code, pc := pc }

/-- The state after boot with `V[x] = a` and `V[y] = b`. -/
def withTwo (x : Nibble) (a : Byte) (y : Nibble) (b : Byte) : State := (State.reset.setV x a).setV y b

/-- The cell at a column and row. -/
def lit (s : State) (c r : Nat) : Bool := s.disp.get (Fin.ofNat 64 c) (Fin.ofNat 32 r)

/-- How many cells are on. -/
def litCount (s : State) : Nat := (s.disp.toList.map fun col => col.toList.count true).sum

/-! ## WellFormed refuses an ill-formed term -/

theorem test_noop_of_an_assigned_word_is_ill_formed :
    Instr.wellFormed (.noop 0x00E0) = false ∧ Instr.wellFormed (.noop 0x8125) = false ∧ Instr.wellFormed (.noop 0xFF65) = false ∧
    Instr.wellFormed (.noop 0x8126) = true := by decide

/-! ## Decoding of words written out from the patterns of R86 -/

theorem test_decode_flow :
    decodeWord 0b0000000011101110 = .ret ∧ decodeWord 0b0001001000110100 = .jp 0x234 ∧ decodeWord 0b0010001000010000 = .call 0x210 ∧
    decodeWord 0b0011001100010000 = .seImm 3 0x10 ∧ decodeWord 0b0100111100010000 = .sneImm 15 0x10 ∧
    decodeWord 0b0101000100100000 = .seReg 1 2 ∧ decodeWord 0x10EE = .jp 0x0EE := by decide

theorem test_decode_alu :
    decodeWord 0b0110101001000010 = .ldImm 10 0x42 ∧ decodeWord 0b0111001000000011 = .addImm 2 3 ∧
    decodeWord 0b1000000000010000 = .ldReg 0 1 ∧ decodeWord 0b1000000000010001 = .orReg 0 1 ∧
    decodeWord 0b1000000000010010 = .andReg 0 1 ∧ decodeWord 0b1000010001000011 = .xorReg 4 4 ∧
    decodeWord 0b1000111100010100 = .addReg 15 1 ∧ decodeWord 0b1000000011110101 = .subReg 0 15 ∧
    decodeWord 0b1100001100001111 = .rnd 3 0x0F := by decide

theorem test_decode_index_memory :
    decodeWord 0b1010000100100011 = .ldI 0x123 ∧ decodeWord 0b1111000100011110 = .addI 1 ∧ decodeWord 0b1111000000101001 = .ldF 0 ∧
    decodeWord 0b1111000000110011 = .ldB 0 ∧ decodeWord 0b1111111101010101 = .storeRegs 15 ∧
    decodeWord 0b1111001001100101 = .loadRegs 2 := by decide

theorem test_decode_display_input_timers :
    decodeWord 0b0000000011100000 = .cls ∧ decodeWord 0b1101000010100101 = .drw 0 10 5 ∧ decodeWord 0b1110010110011110 = .skp 5 ∧
    decodeWord 0b1110010110100001 = .sknp 5 ∧ decodeWord 0b1111001100000111 = .ldVxDt 3 ∧ decodeWord 0b1111000000010101 = .ldDtVx 0 ∧
    decodeWord 0b1111000100011000 = .ldStVx 1 := by decide

/-- The unassigned words that 95_test_vectors.md lists. -/
theorem test_decode_unassigned :
    decodeWord 0x0000 = .noop 0x0000 ∧ decodeWord 0x0123 = .noop 0x0123 ∧ decodeWord 0x01E0 = .noop 0x01E0 ∧
    decodeWord 0x01EE = .noop 0x01EE ∧ decodeWord 0x00E1 = .noop 0x00E1 ∧ decodeWord 0x5121 = .noop 0x5121 ∧
    decodeWord 0x8016 = .noop 0x8016 ∧ decodeWord 0x8017 = .noop 0x8017 ∧ decodeWord 0x801E = .noop 0x801E ∧
    decodeWord 0x801F = .noop 0x801F ∧ decodeWord 0x9120 = .noop 0x9120 ∧ decodeWord 0xB123 = .noop 0xB123 ∧
    decodeWord 0xE19F = .noop 0xE19F ∧ decodeWord 0xE0A2 = .noop 0xE0A2 ∧ decodeWord 0xF00A = .noop 0xF00A ∧
    decodeWord 0xF000 = .noop 0xF000 ∧ decodeWord 0xF030 = .noop 0xF030 ∧ decodeWord 0xFF75 = .noop 0xFF75 := by
  decide

/-- The high byte comes first, and what follows the word is left (R52). -/
theorem test_decode_bytes :
    decodeBytes [0x60, 0x05, 0xAA] = .ok (.ldImm 0 5, [0xAA]) ∧ decodeBytes [0x60] = .error .truncated ∧
    decodeTableWord 16 0x6005 = some (.ldImm 0 5) ∧ encodeBytes (.ldImm 0 5) = [0x60, 0x05] := by decide

/-! ## Loads and ALU (V-A0 to V-A16) -/

theorem test_ldImm : steps (placed 0x6A42 State.reset) (fun t => t.getV 10 == 0x42 && t.pc == 0x202) = true := by decide

theorem test_addImm_wraps_without_carry :
    steps (placed 0x7203 (withTwo 2 0xFE 15 0x55)) (fun t => t.getV 2 == 0x01 && t.getV 15 == 0x55) = true := by decide

theorem test_addImm_on_vf : steps (placed 0x7F01 (State.reset.setV 15 0xFF)) (fun t => t.getV 15 == 0) = true := by decide

theorem test_ldReg : steps (placed 0x8010 (State.reset.setV 1 0x3C)) (fun t => t.getV 0 == 0x3C && t.getV 1 == 0x3C) = true := by decide

theorem test_orReg : steps (placed 0x8011 ((withTwo 0 0xF0 1 0x3C).setV 15 0x77)) (fun t => t.getV 0 == 0xFC && t.getV 15 == 0x77) = true := by
  decide

theorem test_andReg : steps (placed 0x8012 (withTwo 0 0xF0 1 0x3C)) (fun t => t.getV 0 == 0x30) = true := by decide

theorem test_xorReg : steps (placed 0x8013 (withTwo 0 0xF0 1 0x3C)) (fun t => t.getV 0 == 0xCC) = true := by decide

theorem test_addReg_sum_255_is_no_carry :
    steps (placed 0x8014 (withTwo 0 0x80 1 0x7F)) (fun t => t.getV 0 == 0xFF && t.getV 15 == 0) = true := by decide

theorem test_addReg_into_vf : steps (placed 0x8F14 (withTwo 15 0xF0 1 0x20)) (fun t => t.getV 15 == 0x10) = true := by decide

theorem test_subReg_by_vf_reads_the_new_flag :
    steps (placed 0x80F5 (withTwo 0 0x05 15 0x03)) (fun t => t.getV 15 == 1 && t.getV 0 == 0x04) = true := by decide

theorem test_subReg_flag_is_strict :
    steps (placed 0x8015 (withTwo 0 0x10 1 0x10)) (fun t => t.getV 0 == 0 && t.getV 15 == 0) = true := by decide

/-- V-A15, V-A16: the masked bits are 0 whatever byte is drawn. -/
theorem test_rnd : ∃ t, exec (.rnd 5 0xF0) State.reset = .next t ∧ t.getV 5 &&& 0x0F = 0 ∧ t.draws = 1 :=
  ⟨_, rfl, by show (Config.drawByte 0 &&& 0xF0) &&& 0x0F = 0; rw [BitVec.and_assoc]; exact BitVec.and_zero, rfl⟩

/-! ## Index register, loads and stores (V-M1 to V-M9) -/

theorem test_ldI : steps (placed 0xA123 State.reset) (fun t => t.i == 0x123) = true := by decide

theorem test_addI_wraps : steps (placed 0xF11E ((State.reset.setV 1 1).setI 0xFFF)) (fun t => t.i == 0 && t.getV 15 == 0) = true := by
  decide

theorem test_ldF_does_not_mask : steps (placed 0xF029 (State.reset.setV 0 0xFF)) (fun t => t.i == 0x54B) = true := by decide

theorem test_ldB_at_the_last_address :
    steps (placed 0xF033 ((State.reset.setV 0 255).setI 0xFFD)) (fun t => t.readBytes 0xFFD 3 == [2, 5, 5] && t.i == 0xFFD) = true := by
  decide

theorem test_ldB_past_the_end :
    steps (placed 0xF133 (State.reset.setI 0xFFE)) (fun t => t.fault == faultAt 2 0x200 && t.mem == [(0x200, 0xF1), (0x201, 0x33)]) =
      true := by decide

theorem test_storeRegs_stops_at_vx :
    steps (placed 0xF255 (((withTwo 0 1 1 2).setV 2 3).setV 3 9 |>.setI 0x400)) (fun t => t.readBytes 0x400 4 == [1, 2, 3, 0]) = true := by
  decide

theorem test_storeRegs_past_the_end :
    steps (placed 0xF155 ((State.reset.setV 0 7).setI 0xFFF)) (fun t => t.fault == faultAt 2 0x200 && t.readByte 0xFFF == 0) = true := by
  decide

theorem test_loadRegs :
    steps (placed 0xF265 (((State.reset.storeBytes 0x300 [2, 5, 4, 8]).setV 3 9).setI 0x300))
      (fun t => t.v.toList.take 4 == [2, 5, 4, 9] && t.i == 0x300) = true := by decide

theorem test_loadRegs_past_the_end :
    steps (placed 0xF165 ((State.reset.setV 0 7).setI 0xFFF)) (fun t => t.fault == faultAt 2 0x200 && t.getV 0 == 7) = true := by decide

/-! ## Display (E4, E5, V-D3 to V-D8) -/

theorem test_drw_glyph_zero :
    steps (placed 0xD005 (State.reset.setI 0x050)) (fun t => litCount t == 14 && lit t 0 0 && lit t 3 1 && !lit t 1 1 && !lit t 4 0 &&
      t.getV 15 == 0) = true := by decide

theorem test_drw_wraps_and_collides :
    steps (placed 0xD011 (((State.reset.storeBytes 0x300 [0xC0]).setI 0x300).drawAt 0 0 [0x80] |>.setV 0 0x7F))
      (fun t => lit t 63 0 && !lit t 0 0 && litCount t == 1 && t.getV 15 == 1) = true := by decide

theorem test_cls : steps (placed 0x00E0 ((State.reset.drawAt 63 31 [0xFF]).setV 15 9)) (fun t => litCount t == 0 && t.getV 15 == 9) =
    true := by decide

/-! ## Control flow (V-F1 to V-F9) -/

theorem test_jp : steps (placed 0x1234 State.reset) (fun t => t.pc == 0x234) = true := by decide

theorem test_call : steps (placed 0x2210 (State.reset.setPc 0x204)) (fun t => t.pc == 0x210 && t.stack == [0x206]) = true := by decide

theorem test_call_on_a_full_stack :
    steps (placed 0x2200 { State.reset with stack := List.replicate 16 0x202 })
      (fun t => t.fault == faultAt 4 0x200 && t.stack.length == 16 && t.pc == 0x200) = true := by decide

theorem test_ret_takes_the_last_entry :
    steps (placed 0x00EE { State.reset with stack := [0x300, 0x206] }) (fun t => t.pc == 0x206 && t.stack == [0x300]) = true := by decide

theorem test_ret_on_an_empty_stack :
    steps (placed 0x00EE State.reset) (fun t => t.fault == faultAt 3 0x200 && t.pc == 0x200) = true := by decide

theorem test_seImm : steps (placed 0x3310 (State.reset.setV 3 0x10)) (fun t => t.pc == 0x204) = true ∧
    steps (placed 0x3310 (State.reset.setV 3 0x11)) (fun t => t.pc == 0x202) = true := by decide

theorem test_sneImm : steps (placed 0x4310 (State.reset.setV 3 0x11)) (fun t => t.pc == 0x204) = true ∧
    steps (placed 0x4310 (State.reset.setV 3 0x10)) (fun t => t.pc == 0x202) = true := by decide

theorem test_seReg : steps (placed 0x5120 (withTwo 1 7 2 7)) (fun t => t.pc == 0x204) = true ∧
    steps (placed 0x5120 (withTwo 1 7 2 8)) (fun t => t.pc == 0x202) = true := by decide

theorem test_odd_pc : steps (placed 0x6007 (State.reset.setPc 0x203)) (fun t => t.getV 0 == 7 && t.pc == 0x205) = true := by decide

theorem test_fetch_past_the_end : steps (State.reset.setPc 0xFFF) (fun t => t.fault == faultAt 1 0xFFF && t.pc == 0xFFF) = true := by
  decide

/-! ## Key skips, timers and the no-op (V-K1 to V-K6) -/

theorem test_skp : steps (placed 0xE59E ((State.reset.setV 5 10).setKey ⟨10, true⟩)) (fun t => t.pc == 0x204) = true ∧
    steps (placed 0xE59E (State.reset.setV 5 10)) (fun t => t.pc == 0x202) = true := by decide

theorem test_skp_of_no_key : steps (placed 0xE09E (State.reset.setV 0 0x10)) (fun t => t.fault == faultAt 5 0x200) = true := by decide

theorem test_sknp : steps (placed 0xE5A1 (State.reset.setV 5 10)) (fun t => t.pc == 0x204) = true ∧
    steps (placed 0xE5A1 ((State.reset.setV 5 10).setKey ⟨10, true⟩)) (fun t => t.pc == 0x202) = true := by decide

theorem test_ldVxDt : steps (placed 0xF307 (State.reset.setDt 0x3C)) (fun t => t.getV 3 == 0x3C) = true := by decide

theorem test_ldDtVx : steps (placed 0xF015 (State.reset.setV 0 5)) (fun t => t.dt == 5 && t.st == 0) = true := by decide

theorem test_ldStVx : steps (placed 0xF118 (State.reset.setV 1 0x20)) (fun t => t.st == 0x20 && t.dt == 0) = true := by decide

theorem test_noop : steps (placed 0x801F (withTwo 0 3 1 5)) (fun t => t.pc == 0x202 && t.getV 0 == 3 && t.getV 15 == 0) = true := by
  decide

/-! ## Scheduler, reset and load (V-S1 to V-S10, V-R1 to V-R4) -/

/-- A self-jump at 0x200 with DT = 5, started at time 0. -/
def started : State := { (placed 0x1200 State.reset).setDt 5 with running := true }

theorem test_tick_steps : tickSteps 600 0 = 1 ∧ tickSteps 600 16 = 9 ∧ tickSteps 600 20 = 12 ∧ tickSteps 0 71 = 1 := by
  decide +kernel

theorem test_tick_below_a_period : ends (tick 16 [] started) (fun t => t.dt == 5 && t.baseline == 0) = true := by decide +kernel

theorem test_tick_of_one_period : ends (tick (1000 / 60) [] started) (fun t => t.dt == 4 && t.baseline == 1000 / 60) = true := by
  decide +kernel

theorem test_tick_decrements_at_most_once : ends (tick 70 [] started) (fun t => t.dt == 4 && t.baseline == 70) = true := by
  decide +kernel

theorem test_tick_stopped : ends (tick 100 [] State.reset) (fun t => t == State.reset) = true := by decide +kernel

theorem test_tick_while_faulted :
    ends (tick 20 [] { started with fault := faultAt 3 0x200 }) (fun t => t.dt == 4 && t.fault == faultAt 3 0x200) = true := by
  decide +kernel

/-- A key written after the first step of a tick is seen by the second (R241). -/
theorem test_key_write_inside_a_tick :
    ends (runSteps 2 [[⟨0, true⟩]] ((placed 0xE09E (State.reset.setPc 0x202)).setPc 0x200)) (fun t => t.pc == 0x206) = true := by decide

theorem test_tick_back_in_time : tick 3 [] { started with baseline := 4 } = .refused .timeDecreased :=
  if_pos (by decide +kernel)

theorem test_load_clears_the_old_image :
    (loadProgram [0x12] (State.reset.storeBytes 0x200 [0x60, 0x05])).1.mem = [(0x200, 0x12)] := by decide

theorem test_reset_reinstalls_the_font :
    (State.reset.storeBytes 0x04F [0x01, 0x02]).afterReset.readBytes 0x04F 3 = [0x00, 0xF0, 0x90] := by decide

/-! ## Witnesses for the hypotheses of the statements, at the boundaries of their clauses -/

theorem witness_DecodeOfEncodeGivesInstructionBack :
    Instr.wellFormed (.drw 15 15 15) = true ∧ Instr.wellFormed (.noop 0xFFFF) = true := by decide

theorem witness_OpcodeMapIsReadByMaskAndMatch : ∀ r ∈ opcodeRows, (0x0000 : Word) &&& r.mask ≠ r.pattern := by decide

theorem witness_OpcodeRowsAreDisjoint :
    (⟨0xFFFF, 0x00EE⟩ : OpcodeRow) ∈ opcodeRows ∧ (⟨0xF0FF, 0xF065⟩ : OpcodeRow) ∈ opcodeRows ∧
    OpcodeRow.selects ⟨0xFFFF, 0x00EE⟩ 0x00EE = true ∧ opcodeRows.reverse.Perm opcodeRows :=
  ⟨by decide, by decide, by decide, List.reverse_perm _⟩

/-- PC at the last address a fetch allows. -/
theorem witness_StepRunsTheInstructionAtPc :
    let s := placed 0x6A42 (State.reset.setPc 0xFFE)
    s.fault.valid = false ∧ s.pc.toNat ≤ 0xFFE ∧
      decodeBytes [s.readByte s.pc.toNat, s.readByte (s.pc.toNat + 1)] = .ok (.ldImm 10 0x42, []) := by decide

/-- Each cause's condition at its boundary, in a state without a fault. -/
theorem witness_FaultsAreRaisedExactlyWhenDue :
    FaultDue (State.reset.setPc 0xFFF) .boundsFetch ∧ FaultDue (placed 0xD011 (State.reset.setI 0x1000)) .boundsData ∧
    FaultDue (placed 0x00EE State.reset) .stackUnderflow ∧
    FaultDue (placed 0x2200 { State.reset with stack := List.replicate 16 0x202 }) .stackOverflow ∧
    FaultDue (placed 0xE09E (State.reset.setV 0 0x10)) .keyIndex ∧ State.reset.fault.valid = false :=
  ⟨.inl ⟨rfl, by decide⟩, .inr ⟨by decide, .inl ⟨0, 1, 1, by decide, by decide, by decide⟩⟩, .inr ⟨by decide, by decide, by decide⟩,
    .inr ⟨by decide, 0x200, by decide, by decide⟩, .inr ⟨by decide, 0, .inl (by decide), by decide⟩, rfl⟩

/-- A state in which no cause is due, for the answer `Ok`. -/
theorem witness_FaultsAreRaisedExactlyWhenDue_ok : State.reset.fault.valid = false ∧ ∀ d, ¬FaultDue State.reset d := by
  have hw : decodeWord State.reset.fetchWord = .noop 0 := by decide
  refine ⟨rfl, fun d => ?_⟩
  rintro (⟨-, h⟩ | ⟨-, h⟩)
  · exact absurd h (by decide)
  · rw [hw] at h
    cases d <;> simp [InstrFaults] at h

theorem witness_AFaultingStepCommitsNothing :
    (placed 0x00EE State.reset).fault.valid = false ∧
    steps (placed 0x00EE State.reset) (fun t => t.fault.valid) = true := by decide

theorem witness_AStepRaisesAtMostOneFault :
    FaultDue (placed 0xF133 (State.reset.setI 0xFFE)) .boundsData ∧ (State.reset.setPc 0xFFF).fault.valid = false ∧
    (State.reset.setPc 0xFFF).pc.toNat > 0xFFE :=
  ⟨.inr ⟨by decide, .inr (.inl ⟨1, by decide, by decide⟩)⟩, rfl, by decide⟩

/-- A faulted, running state, with a time just at one timer period, a time just below it, and a port that answers. -/
theorem witness_AFaultIsStickyUntilReset :
    let s := { started with fault := faultAt 3 0x200 }
    s.fault.valid = true ∧ s.running = true ∧ s.baseline ≤ 1000 / 60 ∧ 60 * (1000 / 60 - s.baseline) ≥ 1000 ∧ s.baseline ≤ 16 ∧
      60 * (16 - s.baseline) < 1000 ∧ hostCall .stop s = .next ({ s with running := false }, .ok) :=
  ⟨by decide, by decide, by decide +kernel, by decide +kernel, by decide +kernel, by decide +kernel, rfl⟩

theorem witness_AddRegistersSetsCarry :
    (0 : Nibble) ≠ vf ∧ (1 : Nibble) ≠ vf ∧ ((withTwo 0 0xFF 1 1).getV 0).toNat + ((withTwo 0 0xFF 1 1).getV 1).toNat > 255 ∧
    ((withTwo 0 0x80 1 0x7F).getV 0).toNat + ((withTwo 0 0x80 1 0x7F).getV 1).toNat ≤ 255 := by decide

/-- The two values of the flag; the four cases of the registers hold of x, y among 0, 1 and 15. -/
theorem witness_SubtractSetsGreaterFlagFirst :
    ((withTwo 0 4 15 3).getV 0).toNat > ((withTwo 0 4 15 3).getV 15).toNat ∧
    ((withTwo 0 3 15 3).getV 0).toNat ≤ ((withTwo 0 3 15 3).getV 15).toNat ∧ (0 : Nibble) ≠ vf ∧ (1 : Nibble) ≠ vf ∧ (15 : Nibble) = vf := by
  decide

theorem witness_RandomByteIsMasked : (0xF0 : Byte).getLsbD 3 = false ∧ (0xF0 : Byte).getLsbD 0 = false ∧ (4 : Nibble) ≠ 5 := by decide

theorem witness_ReturnPopsOrUnderflows :
    let s := { State.reset with stack := [0x206, 0x1000] }
    s.stack = [0x206] ++ [0x1000] ∧ s.fault.valid = false ∧ (0x1000 : Word).toNat > 0xFFE ∧ State.reset.stack = [] := by decide

theorem witness_JumpGoesToNnn : (State.reset.setPc 0xFFF).pc.toNat = (0xFFF : Addr).toNat := by decide

/-- One entry below the cap, no cap, and the cap. -/
theorem witness_CallPushesOrOverflows :
    let s := { State.reset with stack := List.replicate 15 0x202 }
    let t := { State.reset with stack := List.replicate 16 0x202 }
    let u := { t with params := { t.params with stackDepth := none } }
    s.params.stackDepth ≠ some s.stack.length ∧ u.params.stackDepth ≠ some u.stack.length ∧
      t.params.stackDepth = some t.stack.length := by decide

theorem witness_CallToItselfFillsTheStack :
    let s := placed 0x2200 State.reset
    let t := placed 0x2FFE { State.reset with pc := 0xFFE, stack := List.replicate 16 0x202 }
    (s.fault.valid = false ∧ s.pc.toNat ≤ 0xFFE ∧ s.fetchWord = 0x2000 ||| s.pc ∧ s.params.stackDepth = some 16 ∧ s.stack.length ≤ 16) ∧
      t.fault.valid = false ∧ t.pc.toNat ≤ 0xFFE ∧ t.fetchWord = 0x2000 ||| t.pc ∧ t.params.stackDepth = some 16 ∧
      t.stack.length ≤ 16 := by decide

/-- Each skip's condition holds in one state and fails in another. -/
theorem witness_CompareSkipsSkipWhenTheyHold :
    (withTwo 1 7 2 7).getV 1 = 7 ∧ (withTwo 1 7 2 7).getV 1 ≠ 8 ∧ (withTwo 1 7 2 7).getV 1 = (withTwo 1 7 2 7).getV 2 ∧
    (withTwo 1 7 2 8).getV 1 ≠ (withTwo 1 7 2 8).getV 2 := by decide

/-- Each of the five skips taken, at the first and last PC of the last clause and below it. -/
theorem witness_ATakenSkipPassesTwoBytes :
    let s := ((withTwo 1 7 2 7).setKey ⟨7, true⟩).setPc 0xFFB
    SkipTaken (.seImm 1 7) s ∧ SkipTaken (.sneImm 1 8) s ∧ SkipTaken (.seReg 1 2) (s.setPc 0xFFE) ∧ SkipTaken (.skp 1) s ∧
      SkipTaken (.sknp 0) (s.setPc 0x200) ∧ s.pc.toNat ≤ 0xFFE ∧ s.pc.toNat ≥ 0xFFB ∧ s.fault.valid = false :=
  ⟨.inl ⟨1, 7, rfl, by decide⟩, .inr (.inl ⟨1, 8, rfl, by decide⟩), .inr (.inr (.inl ⟨1, 2, rfl, by decide⟩)),
    .inr (.inr (.inr (.inl ⟨1, rfl, by decide⟩))), .inr (.inr (.inr (.inr ⟨0, rfl, by decide⟩))), by decide, by decide, rfl⟩

theorem witness_BcdStoreWritesThreeDigits :
    (State.reset.setI 0xFFD).i.toNat + 2 ≤ 0xFFF ∧ (State.reset.setI 0xFFE).i.toNat + 2 > 0xFFF ∧
    (State.reset.setI 0x202).i = (State.reset.setI 0x202).pc + 2 ∧ (State.reset.setI 0x202).i.toNat + 2 ≤ 0xFFF := by decide

theorem witness_StoreRegistersWritesTheRange :
    (State.reset.setI 0xFF0).i.toNat + (15 : Nibble).val ≤ 0xFFF ∧ (State.reset.setI 0xFFF).i.toNat + (0 : Nibble).val ≤ 0xFFF ∧
    (State.reset.setI 0xFF1).i.toNat + (15 : Nibble).val > 0xFFF ∧ (15 : Nibble).val ≤ (15 : Nibble).val := by decide

theorem witness_LoadRegistersReadsTheRange :
    (State.reset.setI 0xFFD).i.toNat + (2 : Nibble).val ≤ 0xFFF ∧ (2 : Nibble).val ≤ (2 : Nibble).val ∧
    (3 : Nibble).val > (2 : Nibble).val ∧ (State.reset.setI 0xFFE).i.toNat + (2 : Nibble).val > 0xFFF := by decide

theorem witness_DrawSpriteIsOneXorWithTheMask :
    63 < 64 ∧ 31 < 32 ∧ (List.replicate 15 (0xFF : Byte)).length ≤ 15 ∧ (63 + 7) % 64 = (63 + 7) % 64 ∧ (31 + 14) % 32 = (31 + 14) % 32 := by
  decide

/-- The last legal sprite, the empty sprite past the end, a sprite of glyph bytes, and the first illegal sprite. -/
theorem witness_DrawXorsTheSpriteAndFlagsCollision :
    (State.reset.setI 0xFFF).i.toNat + (1 : Nibble).val - 1 ≤ 0xFFF ∧ (0 : Nibble).val = 0 ∧
    HoldsBytes (State.reset.setI 0x050) (State.reset.setI 0x050).i.toNat [0xF0, 0x90] ∧ [(0xF0 : Byte), 0x90].length = (2 : Nibble).val ∧
    HoldsBytes (State.reset.setI 0xFFFF) (State.reset.setI 0xFFFF).i.toNat [] ∧
    (1 : Nibble).val ≥ 1 ∧ (State.reset.setI 0x1000).i.toNat + (1 : Nibble).val - 1 > 0xFFF := by
  unfold HoldsBytes
  decide

/-- A draw that collides and one that does not. -/
theorem witness_DrawXorsTheSpriteAndFlagsCollision_flag :
    Collides (SpriteCovers 0 0 [0x80]) (State.reset.drawAt 0 0 [0x80]).disp ∧ ¬Collides (SpriteCovers 0 0 [0x80]) State.reset.disp := by
  refine ⟨⟨0, 0, ⟨0, 0, by decide, by decide, by decide, by decide, by decide⟩, by decide⟩, ?_⟩
  rintro ⟨c, r, -, h⟩
  rw [show State.reset.disp.get c r = false from Display.get_clear c r] at h
  cases h

theorem witness_DrawingTwiceRestoresTheDisplay :
    (0 : Nibble) ≠ vf ∧ (14 : Nibble) ≠ vf ∧ (State.reset.setI 0xFF1).i.toNat + (15 : Nibble).val - 1 ≤ 0xFFF := by decide

/-- The last key, pressed and not pressed, and the first value that names no key. -/
theorem witness_KeySkipsFollowTheKeyLevel :
    let s := (State.reset.setV 5 0xF).setKey ⟨15, true⟩
    (s.getV 5).toNat = (15 : Nibble).val ∧ s.key[(15 : Nibble)] = true ∧ State.reset.key[(15 : Nibble)] = false ∧
      ((State.reset.setV 5 0x10).getV 5).toNat > 0xF := by decide

theorem witness_UnassignedWordsOnlyAdvancePc :
    isUnassigned 0xFFFF = true ∧ (State.reset.setPc 0xFFE).fault.valid = false ∧ (State.reset.setPc 0xFFE).pc = 0xFFE := by decide

theorem witness_ShiftWordsAreNoops :
    (opField 0x8006 = 0x8 ∧ 6 ≤ (nField 0x8006).val) ∧ opField 0x8FFF = 0x8 ∧ 6 ≤ (nField 0x8FFF).val := by decide

/-- Stopped; running with a whole number of cycles (10 at one period), with a fraction (9.6) and with none; paused. -/
theorem witness_TickRunsItsStepsThenDecrementsOnce :
    State.reset.baseline ≤ 100 ∧ State.reset.running = false ∧ started.running = true ∧ started.baseline ≤ 1000 / 60 ∧
    ((10 : Nat) : Rat) ≤ started.ips * (1000 / 60 - started.baseline) / 1000 ∧
    started.ips * (1000 / 60 - started.baseline) / 1000 < ((10 : Nat) : Rat) + 1 ∧ 60 * (1000 / 60 - started.baseline) ≥ 1000 ∧
    ((9 : Nat) : Rat) ≤ started.ips * (16 - started.baseline) / 1000 ∧
    started.ips * (16 - started.baseline) / 1000 < ((9 : Nat) : Rat) + 1 ∧ 60 * (16 - started.baseline) < 1000 ∧
    ((0 : Nat) : Rat) ≤ started.ips * (0 - started.baseline) / 1000 ∧
    started.ips * (0 - started.baseline) / 1000 < ((0 : Nat) : Rat) + 1 ∧ { started with paused := true }.running = true := by
  decide +kernel

/-- The last of two writes to a key, and keys that no write names, next to the named ones and at the end of the range. -/
theorem witness_KeysWritten :
    let ws : List KeyWrite := [⟨3, true⟩, ⟨14, true⟩, ⟨3, false⟩]
    (∀ w ∈ ws, w.k ≠ 2) ∧ (∀ w ∈ ws, w.k ≠ 15) ∧ (ws = [⟨3, true⟩, ⟨14, true⟩] ++ ⟨3, false⟩ :: [] ∧ ∀ u ∈ ([] : List KeyWrite), u.k ≠ 3) ∧
      ws = [⟨3, true⟩] ++ ⟨14, true⟩ :: [⟨3, false⟩] ∧ ∀ u ∈ [(⟨3, false⟩ : KeyWrite)], u.k ≠ 14 := by
  simp

theorem witness_APausedTickOnlyCountsTime :
    let s := { started with paused := true }
    s.running = true ∧ s.paused = true ∧ s.baseline ≤ 1000 / 60 ∧ 60 * (1000 / 60 - s.baseline) ≥ 1000 ∧ s.baseline ≤ 0 ∧
      60 * (0 - s.baseline) < 1000 := by decide +kernel

theorem witness_StartAndStopSwitchTheScheduler :
    started.baseline ≤ 0 ∧ State.reset.running = false ∧ State.reset.baseline ≤ 0 := by decide +kernel

theorem witness_AnIpsOfZeroRunsOneStepATick :
    let s := { started with ips := 0 }
    s.ips = 0 ∧ s.running = true ∧ s.paused = false ∧ s.baseline ≤ 71 ∧ 60 * (71 - s.baseline) ≥ 1000 ∧ 60 * (16 - s.baseline) < 1000 := by
  decide +kernel

theorem witness_SetKeyWritesOneKey : (14 : Nibble) ≠ 15 := by decide

theorem witness_ResetPortClearsTheMachine : 79 < 80 ∧ (0x04F < 0x050 ∨ 0x0A0 ≤ 0x04F) ∧ (0x0A0 < 0x050 ∨ 0x0A0 ≤ 0x0A0) := by decide

theorem witness_LoadProgramCopiesOrRejects :
    (List.replicate 3584 (0x01 : Byte)).length ≤ 3584 ∧ (List.replicate 3585 (0x01 : Byte)).length > 3584 := by
  rw [List.length_replicate, List.length_replicate]; omega

theorem witness_LoadThenResetRestoresConstruction :
    ends (runFor 3 (loadProgram [0x60, 0x05, 0x61, 0x03, 0x80, 0x14] State.reset).1)
      (fun t => t.getV 0 == 8 && t.getV 1 == 3 && t.getV 15 == 0 && t.pc == 0x206) = true := by decide

theorem witness_BootGivesAFreshRun :
    (List.replicate 3584 (0x01 : Byte)).length ≤ 3584 ∧ (0 : Time) ≤ 0 ∧ State.reset.baseline ≤ 0 :=
  ⟨by rw [List.length_replicate], by decide +kernel, by decide +kernel⟩

theorem witness_ASelfJumpStaysWhereItIs :
    (placed 0x1200 State.reset).atSelfJump = true ∧ (placed 0x1FFE (State.reset.setPc 0xFFE)).atSelfJump = true := by decide

/-- A state at the edges of the invariant: the last fetchable PC, the last I, a return address of 0x1000, a listed byte. -/
def edge : State := { State.reset with pc := 0xFFE, i := 0xFFF, stack := [0x1000], mem := [(0x200, 0x12)] }

theorem witness_EveryStepKeepsTheInvariant : Inv edge ∧ steps edge (fun t => t.pc == 0x1000) = true :=
  ⟨⟨by intro d hd; injection hd with hd; omega, by decide +kernel, by intro d hd; injection hd with hd; subst hd; decide,
    by decide +kernel, by intro a ha; rw [List.mem_singleton.1 ha]; exact Nat.le_refl _, by decide +kernel, by decide, by decide,
    by decide +kernel⟩, by decide +kernel⟩

theorem witness_HostCallsKeepTheInvariant :
    ends (runCalls 0 [.step, .setKey 3 true, .start 5, .tick 30 [], .loadProgram [0x12, 0x00], .reset] edge) (fun t => t.pc == 0x200) =
      true := by decide +kernel

theorem witness_NoInstructionReachesControlState :
    ends (exec (.ldB 0) (State.reset.setI 0x300)) (fun t => t.fault == State.reset.fault) = true ∧
    ends (exec (.ldB 0) (State.reset.setI 0xFFE)) (fun t => t.fault == faultAt 2 0x200) = true := by decide +kernel

end Sys2Proof.Machine.Tests
end

section
/-! PROOFS. The family of 10_state.md: the machine's invariant (R41) holds after reset, every step keeps it, and so does every
sequence of host calls. -/

namespace Sys2Proof.Machine

/-! ## Outcomes whose next value satisfies a predicate -/

/-- If `o` answers a next value, that value satisfies `P`. -/
def Answers {α : Type} (P : α → Prop) (o : Host.Outcome α Fault Refusal) : Prop := ∀ a, o = .next a → P a

section Answers
variable {α β : Type} {P : α → Prop} {Q : β → Prop}

theorem Answers.next {a : α} (h : P a) : Answers P (.next a) := by
  intro b e
  injection e with e
  exact e ▸ h

theorem Answers.refused (r : Refusal) : Answers P (.refused r) := nofun

theorem Answers.ite {c : Prop} [Decidable c] {o p : Host.Outcome α Fault Refusal} (ho : c → Answers P o)
    (hp : ¬c → Answers P p) : Answers P (if c then o else p) := by
  split
  · next hc => exact ho hc
  · next hc => exact hp hc

theorem Answers.bind {o : Host.Outcome α Fault Refusal} {k : α → Host.Outcome β Fault Refusal} (ho : Answers P o)
    (hk : ∀ a, P a → Answers Q (k a)) : Answers Q (bindOutcome o k) := by
  intro b e
  obtain ⟨a, ha, hb⟩ := (bindOutcome_eq_next o k b).1 e
  exact hk a (ho a ha) b hb

end Answers

/-! ## The invariant under each state operation

An operation on a field that the invariant does not name keeps it as it stands: `{ h with }`. -/

theorem Inv.withRegisters {s : State} (h : Inv s) (v : Vector Byte 16) : Inv { s with v := v } := { h with }

theorem Inv.setV {s : State} (h : Inv s) (x : Nibble) (b : Byte) : Inv (s.setV x b) := h.withRegisters _

theorem Inv.setDt {s : State} (h : Inv s) (b : Byte) : Inv (s.setDt b) := { h with }

theorem Inv.setSt {s : State} (h : Inv s) (b : Byte) : Inv (s.setSt b) := { h with }

theorem Inv.loadRange {s : State} (h : Inv s) (a : Nat) (x : Nibble) : Inv (s.loadRange a x) := h.withRegisters _

theorem Inv.drawByte {s : State} (h : Inv s) : Inv s.drawByte.2 := { h with }

theorem Inv.drawAt {s : State} (h : Inv s) (ox oy : Nat) (bytes : List Byte) : Inv (s.drawAt ox oy bytes) := { h with }

theorem Inv.clearDisplay {s : State} (h : Inv s) : Inv s.clearDisplay := { h with }

theorem Inv.setKey {s : State} (h : Inv s) (w : KeyWrite) : Inv (s.setKey w) := { h with }

theorem Inv.setKeys {s : State} (h : Inv s) (ws : List KeyWrite) : Inv (s.setKeys ws) := by
  rw [State.setKeys_eq]
  exact { h with }

theorem Inv.setI {s : State} (h : Inv s) {a : Word} (ha : a.toNat ≤ 0xFFF) : Inv (s.setI a) := { h with index_le := ha }

theorem Inv.setPc {s : State} (h : Inv s) {a : Word} (ha : a.toNat ≤ 0x1002) : Inv (s.setPc a) := { h with pc_le := ha }

/-- The fetch increment from a PC that can be fetched at leaves PC at most 0x1000. -/
theorem State.fetched_pc_le {s : State} (hpc : s.pc.toNat ≤ 0xFFE) : s.fetched.pc.toNat ≤ 0x1000 := by
  rw [State.fetched_pc]; bv_omega

theorem Inv.fetched {s : State} (h : Inv s) (hpc : s.pc.toNat ≤ 0xFFE) : Inv s.fetched :=
  { h with pc_le := Nat.le_trans (State.fetched_pc_le hpc) (by decide) }

/-- A skip adds 2 to a PC of at most 0x1000: the highest PC there is (20_memory.md R56). -/
theorem Inv.skipIf {s : State} (h : Inv s) (hpc : s.pc.toNat ≤ 0x1000) (c : Bool) : Inv (s.skipIf c) := by
  have hskip : (s.pc + 2).toNat ≤ 0x1002 := by bv_omega
  cases c with
  | false => exact h
  | true => exact { h with pc_le := hskip }

theorem Inv.storeBytes {s : State} (h : Inv s) (a : Nat) (bytes : List Byte) (ha : a + bytes.length ≤ memSize) :
    Inv (s.storeBytes a bytes) :=
  { h with mem_wf := Memory.wf_writeBytes _ h.mem_wf bytes a ha }

/-- A push onto a stack that is not full stays within STACK_DEPTH. -/
theorem Inv.push {s : State} (h : Inv s) (hfull : s.stackFull ≠ true) {a : Word} (ha : a.toNat ≤ 0x1000) :
    Inv (s.push a) := by
  refine { h with stack_le := fun d hd => ?_, entries_le := fun b hb => ?_ }
  · have hle : s.stack.length ≤ d := h.stack_le d hd
    have hne : s.stack.length ≠ d := fun e => hfull (s.stackFull_iff.2 (e ▸ hd))
    rw [State.push_stack, List.length_append, List.length_singleton]
    omega
  · rcases List.mem_append.1 hb with hb | hb
    · exact h.entries_le b hb
    · exact List.mem_singleton.1 hb ▸ ha

/-- A pop shortens the stack and answers one of its entries. -/
theorem Inv.pop {s t : State} {a : Word} (h : Inv s) (hp : s.pop = some (a, t)) : Inv t ∧ a.toNat ≤ 0x1000 := by
  obtain ⟨hst, ht⟩ := (s.pop_eq_some t a).1 hp
  constructor
  · rw [ht]
    refine { h with stack_le := fun d hd => ?_, entries_le := fun b hb => ?_ }
    · have hle : s.stack.length ≤ d := h.stack_le d hd
      rw [hst, List.length_append] at hle
      exact Nat.le_of_add_right_le hle
    · exact h.entries_le b (hst ▸ List.mem_append_left _ hb)
  · exact h.entries_le a (by simp [hst])

/-- Every cause has a code from 1 to 5 (60_exceptions.md R212). -/
theorem causeCode_range (c : FaultCause) : 1 ≤ (causeCode c).toNat ∧ (causeCode c).toNat ≤ 5 := by
  cases c <;> decide

theorem Inv.faulted {s : State} (h : Inv s) (c : FaultCause) : Inv (s.faulted c) :=
  { h with
    fault_valid := fun _ => ⟨(causeCode_range c).1, (causeCode_range c).2, h.pc_le⟩
    fault_clear := nofun }

theorem Inv.raiseFault {s : State} (h : Inv s) (c : FaultCause) : Answers Inv (raiseFault c s) := .next (h.faulted c)

/-- PROGRAM_BASE as a PC (20_memory.md R59). -/
theorem programBase_pc_le : (BitVec.ofNat 16 programBase).toNat ≤ 0x1002 := by decide

/-- A reset meets the invariant whatever it resets, up to the two fields the invariant names that it leaves alone
(70_reset_and_hazards.md R261). -/
theorem inv_afterReset {s : State} (hp : s.params.legal) (hb : 0 ≤ s.baseline) : Inv s.afterReset where
  params_legal := hp
  index_le := Nat.zero_le _
  stack_le _ _ := Nat.zero_le _
  pc_le := programBase_pc_le
  entries_le := nofun
  mem_wf := Memory.wf_nil _
  fault_valid := nofun
  fault_clear _ := rfl
  baseline_nonneg := hb

theorem Inv.withProgram {s : State} (h : Inv s) (bytes : List Byte) (hlen : bytes.length ≤ maxProgramLen) :
    Inv (s.withProgram bytes) :=
  { h with
    mem_wf := Memory.wf_writeBytes _ (Memory.wf_clearFrom _ h.mem_wf _) bytes _ (Nat.add_le_add_left hlen programBase)
    pc_le := programBase_pc_le }

theorem Inv.timerBranch {s : State} (h : Inv s) {now : Time} (hnow : 0 ≤ now) (elapsed : Time) :
    Inv (timerBranch now elapsed s) := by
  unfold Machine.timerBranch
  split
  · exact { h with baseline_nonneg := hnow }
  · exact h

/-! ## The values that go to I and PC -/

theorem zext16_le (nnn : Addr) : (zext16 nnn).toNat ≤ 0xFFF := by
  rw [zext16_toNat]; exact Nat.le_of_lt_succ nnn.isLt

/-- Fx1E wraps at 12 bits (42_index_memory.md R141). -/
theorem indexSum_le (i : Word) (b : Byte) : (indexSum i b).toNat ≤ 0xFFF := by
  rw [indexSum, BitVec.toNat_ofNat]; omega

/-- The last glyph address is 0x050 + 255 * 5 (42_index_memory.md R142). -/
theorem glyphAddr_le (b : Byte) : (glyphAddr b).toNat ≤ 0xFFF := by
  have := b.isLt
  rw [glyphAddr, BitVec.toNat_ofNat, fontBase, Nat.mod_eq_of_lt (by omega)]
  omega

/-! ## Steps -/

section Exec
variable {s : State}

theorem execRet_keepsInv (h : Inv s) (hpc : s.pc.toNat ≤ 0xFFE) : Answers Inv (execRet s) := by
  unfold execRet
  split
  · exact h.raiseFault _
  · next a t hp =>
    obtain ⟨ht, ha⟩ := (h.fetched hpc).pop hp
    exact .next (ht.setPc (by omega))

theorem execCall_keepsInv (h : Inv s) (hpc : s.pc.toNat ≤ 0xFFE) (nnn : Addr) : Answers Inv (execCall nnn s) := by
  have hret : s.fetched.pc.toNat ≤ 0x1000 := State.fetched_pc_le hpc
  have hto := zext16_le nnn
  exact .ite (fun _ => h.raiseFault _) fun hfull => .next (((h.fetched hpc).push hfull hret).setPc (by omega))

theorem execDrw_keepsInv (h : Inv s) (hpc : s.pc.toNat ≤ 0xFFE) (x y n : Nibble) : Answers Inv (execDrw x y n s) :=
  .ite (fun _ => .next ((h.fetched hpc).drawAt _ _ _)) fun _ => h.raiseFault _

theorem execLdB_keepsInv (h : Inv s) (hpc : s.pc.toNat ≤ 0xFFE) (x : Nibble) : Answers Inv (execLdB x s) := by
  refine .ite (fun hin => .next ((h.fetched hpc).storeBytes _ _ ?_)) fun _ => h.raiseFault _
  simp only [inBounds_iff, effAddr_eq, bcdDigits_length, memSize] at hin ⊢
  omega

theorem execStoreRegs_keepsInv (h : Inv s) (hpc : s.pc.toNat ≤ 0xFFE) (x : Nibble) : Answers Inv (execStoreRegs x s) := by
  refine .ite (fun hin => .next ((h.fetched hpc).storeBytes _ _ ?_)) fun _ => h.raiseFault _
  simp only [inBounds_iff, effAddr_eq, List.length_take, memSize] at hin ⊢
  omega

theorem execLoadRegs_keepsInv (h : Inv s) (hpc : s.pc.toNat ≤ 0xFFE) (x : Nibble) : Answers Inv (execLoadRegs x s) :=
  .ite (fun _ => .next ((h.fetched hpc).loadRange _ x)) fun _ => h.raiseFault _

theorem execSkp_keepsInv (h : Inv s) (hpc : s.pc.toNat ≤ 0xFFE) (x : Nibble) : Answers Inv (execSkp x s) := by
  unfold execSkp
  split
  · exact h.raiseFault _
  · exact .next ((h.fetched hpc).skipIf (State.fetched_pc_le hpc) _)

theorem execSknp_keepsInv (h : Inv s) (hpc : s.pc.toNat ≤ 0xFFE) (x : Nibble) : Answers Inv (execSknp x s) := by
  unfold execSknp
  split
  · exact h.raiseFault _
  · exact .next ((h.fetched hpc).skipIf (State.fetched_pc_le hpc) _)

/-- Each instruction keeps the invariant where its word could be fetched. From a higher PC it need not: CALL would push a return
address above 0x1000. -/
theorem exec_keepsInv (h : Inv s) (hpc : s.pc.toNat ≤ 0xFFE) (i : Instr) : Answers Inv (exec i s) := by
  have hf : Inv s.fetched := h.fetched hpc
  have hskip : ∀ c, Inv (s.fetched.skipIf c) := hf.skipIf (State.fetched_pc_le hpc)
  cases i with
  | cls => exact .next hf.clearDisplay
  | ret => exact execRet_keepsInv h hpc
  | jp nnn => exact .next (hf.setPc (Nat.le_trans (zext16_le nnn) (by decide)))
  | call nnn => exact execCall_keepsInv h hpc nnn
  | seImm x nn => exact .next (hskip _)
  | sneImm x nn => exact .next (hskip _)
  | seReg x y => exact .next (hskip _)
  | ldImm x nn => exact .next (hf.setV x _)
  | addImm x nn => exact .next (hf.setV x _)
  | ldReg x y => exact .next (hf.setV x _)
  | orReg x y => exact .next (hf.setV x _)
  | andReg x y => exact .next (hf.setV x _)
  | xorReg x y => exact .next (hf.setV x _)
  | addReg x y => exact .next ((hf.setV vf _).setV x _)
  | subReg x y => exact .next ((hf.setV vf _).setV x _)
  | ldI nnn => exact .next (hf.setI (zext16_le nnn))
  | rnd x nn => exact .next (hf.drawByte.setV x _)
  | drw x y n => exact execDrw_keepsInv h hpc x y n
  | skp x => exact execSkp_keepsInv h hpc x
  | sknp x => exact execSknp_keepsInv h hpc x
  | ldVxDt x => exact .next (hf.setV x _)
  | ldDtVx x => exact .next (hf.setDt _)
  | ldStVx x => exact .next (hf.setSt _)
  | addI x => exact .next (hf.setI (indexSum_le _ _))
  | ldF x => exact .next (hf.setI (glyphAddr_le _))
  | ldB x => exact execLdB_keepsInv h hpc x
  | storeRegs x => exact execStoreRegs_keepsInv h hpc x
  | loadRegs x => exact execLoadRegs_keepsInv h hpc x
  | noop w => exact .next hf

end Exec

theorem step_keepsInv {s : State} (h : Inv s) : Answers Inv (step s) := by
  obtain ⟨_, e⟩ | ⟨_, _, e⟩ | ⟨_, hpc, e⟩ := step_cases s
  · rw [e]; exact .next h
  · rw [e]; exact .next (h.faulted _)
  · rw [e]; exact exec_keepsInv h hpc _

/-! ## Host calls -/

theorem runSteps_keepsInv (n : Nat) (writes : List (List KeyWrite)) {s : State} (h : Inv s) :
    Answers Inv (runSteps n writes s) := by
  induction n generalizing writes s with
  | zero => exact .next (h.setKeys _)
  | succ n ih => exact (step_keepsInv h).bind fun t ht => ih writes.tail (ht.setKeys _)

/-- The times the host passes never go below the baseline, so they are not negative. -/
theorem Inv.time_nonneg {s : State} (h : Inv s) {now : Time} (hnow : ¬now < s.baseline) : 0 ≤ now :=
  le_trans h.baseline_nonneg (not_lt.1 hnow)

theorem tick_keepsInv (now : Time) (writes : List (List KeyWrite)) {s : State} (h : Inv s) :
    Answers Inv (tick now writes s) := by
  refine .ite (fun _ => .refused _) fun hnow => .ite (fun _ => ?_) fun _ => .next (h.setKeys _)
  exact (runSteps_keepsInv _ writes h).bind fun t ht => .next (ht.timerBranch (h.time_nonneg hnow) _)

theorem start_keepsInv (now : Time) {s : State} (h : Inv s) : Answers Inv (start now s) :=
  .ite (fun _ => .refused _) fun hnow => .next { h with baseline_nonneg := h.time_nonneg hnow }

theorem loadProgram_keepsInv (bytes : List Byte) {s : State} (h : Inv s) : Inv (loadProgram bytes s).1 := by
  unfold loadProgram
  split
  · exact h
  · next hlen => exact h.withProgram bytes (Nat.le_of_not_gt hlen)

theorem hostCall_keepsInv (c : HostCall) {s : State} (h : Inv s) : Answers (fun p => Inv p.1) (hostCall c s) := by
  cases c with
  | reset => exact .next (inv_afterReset h.params_legal h.baseline_nonneg)
  | loadProgram bytes => exact .next (loadProgram_keepsInv bytes h)
  | start now => exact (start_keepsInv now h).bind fun _ ht => .next ht
  | stop => exact .next { h with }
  | setPaused b => exact .next { h with }
  | setIps v => exact .next { h with }
  | tick now writes => exact (tick_keepsInv now writes h).bind fun _ ht => .next ht
  | step => exact (step_keepsInv h).bind fun _ ht => .next ht
  | setKey k b => exact .next (h.setKey _)
  | readDisplay => exact .next h
  | inspect => exact .next h

theorem runCalls_keepsInv (last : Time) (calls : List HostCall) {s : State} (h : Inv s) :
    Answers Inv (runCalls last calls s) := by
  induction calls generalizing last s with
  | nil => exact .next h
  | cons c calls ih =>
    exact .ite (fun _ => .refused _) fun _ => (hostCall_keepsInv c h).bind fun p hp => ih _ hp

/-! ## The statements -/

/-- Settles O53: the reset state is a state just reset, with the default parameters and a baseline of 0. -/
theorem invariantHoldsAtReset : Obligations.InvariantHoldsAtReset := by
  have hp : State.reset.params.legal := by
    intro d hd
    injection hd with hd
    exact Nat.le_of_eq hd
  exact inv_afterReset (s := State.reset) hp (le_refl 0)

/-- Settles O54, by the cases of a step: nothing while faulted, a fetch fault, or an instruction at a PC of at most 0xFFE. -/
theorem everyStepKeepsTheInvariant : Obligations.EveryStepKeepsTheInvariant :=
  fun _ t h e => step_keepsInv h t e

/-- Settles O55, by induction on the calls: each port keeps the invariant. -/
theorem hostCallsKeepTheInvariant : Obligations.HostCallsKeepTheInvariant :=
  fun last calls _ t h e => runCalls_keepsInv last calls h t e

end Sys2Proof.Machine
end

section
/-! PROOFS. The family of 30_encoding.md: the decoder reads the opcode map by mask and match (R85, R86), the rows are disjoint (R87), the
unassigned words lie in their regions (R88), and a step runs the word at PC (R81). -/

namespace Sys2Proof.Machine

/-! ## A word belongs to the row of the instruction the decoder reads from it -/

/-- What the decoder may answer for `w`: an instruction whose row selects `w`, or the no-op that carries `w`. -/
def ReadsByRow (w : Word) (i : Instr) : Prop := (rowOf i).elim (i = .noop w) fun r => r.selects w = true

section ReadsByRow
variable {w : Word} {i : Instr} {op n : Nibble} {nn : Byte}

theorem readsByRow_of_op (ho : opField w = op) (hrow : rowOf i = some ⟨0xF000, BitVec.ofNat 16 (op.val * 4096)⟩) :
    ReadsByRow w i := by
  rw [ReadsByRow, hrow]
  exact beq_iff_eq.2 ((selects_op w op).2 ho)

theorem readsByRow_of_op_n (ho : opField w = op) (hn : nField w = n)
    (hrow : rowOf i = some ⟨0xF00F, BitVec.ofNat 16 (op.val * 4096 + n.val)⟩) : ReadsByRow w i := by
  rw [ReadsByRow, hrow]
  exact beq_iff_eq.2 ((selects_op_n w op n).2 ⟨ho, hn⟩)

theorem readsByRow_of_op_nn (ho : opField w = op) (hnn : nnField w = nn)
    (hrow : rowOf i = some ⟨0xF0FF, BitVec.ofNat 16 (op.val * 4096 + nn.toNat)⟩) : ReadsByRow w i := by
  rw [ReadsByRow, hrow]
  exact beq_iff_eq.2 ((selects_op_nn w op nn).2 ⟨ho, hnn⟩)

end ReadsByRow

theorem decodeZero_readsByRow (w : Word) : ReadsByRow w (decodeZero w) := by
  unfold decodeZero
  split
  · next hw => subst hw; rfl
  split
  · next hw => subst hw; rfl
  · rfl

theorem decodeEight_readsByRow {w : Word} (ho : opField w = 0x8) : ReadsByRow w (decodeEight w) := by
  unfold decodeEight
  split
  iterate 6 next hn => exact readsByRow_of_op_n ho hn rfl
  rfl

theorem decodeE_readsByRow {w : Word} (ho : opField w = 0xE) : ReadsByRow w (decodeE w) := by
  unfold decodeE
  iterate 2
    split
    · next hnn => exact readsByRow_of_op_nn ho hnn rfl
  rfl

theorem decodeF_readsByRow {w : Word} (ho : opField w = 0xF) : ReadsByRow w (decodeF w) := by
  unfold decodeF
  iterate 8
    split
    · next hnn => exact readsByRow_of_op_nn ho hnn rfl
  rfl

theorem decodeWord_readsByRow (w : Word) : ReadsByRow w (decodeWord w) := by
  unfold decodeWord
  match ho : opField w with
  | 0x0 => exact decodeZero_readsByRow w
  | 0x1 | 0x2 | 0x3 | 0x4 | 0x6 | 0x7 | 0xA | 0xC | 0xD => exact readsByRow_of_op ho rfl
  | 0x5 =>
    simp only
    split
    · next hn => exact readsByRow_of_op_n ho hn rfl
    · rfl
  | 0x8 => exact decodeEight_readsByRow ho
  | 0x9 | 0xB => rfl
  | 0xE => exact decodeE_readsByRow ho
  | 0xF => exact decodeF_readsByRow ho
  | ⟨k + 16, hk⟩ => omega

theorem selects_of_rowOf_decodeWord {w : Word} {r : OpcodeRow} (h : rowOf (decodeWord w) = some r) : r.selects w = true := by
  have hw := decodeWord_readsByRow w
  rwa [ReadsByRow, h] at hw

theorem decodeWord_eq_noop_of_rowOf {w : Word} (h : rowOf (decodeWord w) = none) : decodeWord w = .noop w := by
  have hw := decodeWord_readsByRow w
  rwa [ReadsByRow, h] at hw

theorem rowOf_mem {i : Instr} {r : OpcodeRow} (h : rowOf i = some r) : r ∈ opcodeRows := by
  cases i with
  | noop w => cases h
  | _ => cases h; decide

/-! ## The rows of the map -/

section RowReadsAs
variable {read : Word → Instr}

/-- Only the one direction is left to show of a row: that its words are read as its instruction. -/
theorem rowReadsAs_of_rowOf {mask pattern : Word} (hrow : ∀ w, rowOf (read w) = some ⟨mask, pattern⟩)
    (hread : ∀ w, w &&& mask = pattern → decodeWord w = read w) : RowReadsAs mask pattern read :=
  fun w => ⟨hread w, fun e => beq_iff_eq.1 (selects_of_rowOf_decodeWord ((congrArg rowOf e).trans (hrow w)))⟩

/-- A row that fixes the whole word. -/
theorem rowReadsAs_of_word {v : Word} (hrow : ∀ w, rowOf (read w) = some ⟨0xFFFF, v⟩) (hread : decodeWord v = read v) :
    RowReadsAs 0xFFFF v read := by
  refine rowReadsAs_of_rowOf hrow fun w h => ?_
  obtain rfl : w = v := (BitVec.and_allOnes (x := w)).symm.trans h
  exact hread

theorem rowReadsAs_of_op (op : Nibble) (hrow : ∀ w, rowOf (read w) = some ⟨0xF000, BitVec.ofNat 16 (op.val * 4096)⟩)
    (hread : ∀ w, opField w = op → decodeWord w = read w) : RowReadsAs 0xF000 (BitVec.ofNat 16 (op.val * 4096)) read :=
  rowReadsAs_of_rowOf hrow fun w h => hread w ((selects_op w op).1 h)

theorem rowReadsAs_of_op_n (op n : Nibble)
    (hrow : ∀ w, rowOf (read w) = some ⟨0xF00F, BitVec.ofNat 16 (op.val * 4096 + n.val)⟩)
    (hread : ∀ w, opField w = op → nField w = n → decodeWord w = read w) :
    RowReadsAs 0xF00F (BitVec.ofNat 16 (op.val * 4096 + n.val)) read := by
  refine rowReadsAs_of_rowOf hrow fun w h => ?_
  obtain ⟨ho, hn⟩ := (selects_op_n w op n).1 h
  exact hread w ho hn

theorem rowReadsAs_of_op_nn (op : Nibble) (nn : Byte)
    (hrow : ∀ w, rowOf (read w) = some ⟨0xF0FF, BitVec.ofNat 16 (op.val * 4096 + nn.toNat)⟩)
    (hread : ∀ w, opField w = op → nnField w = nn → decodeWord w = read w) :
    RowReadsAs 0xF0FF (BitVec.ofNat 16 (op.val * 4096 + nn.toNat)) read := by
  refine rowReadsAs_of_rowOf hrow fun w h => ?_
  obtain ⟨ho, hnn⟩ := (selects_op_nn w op nn).1 h
  exact hread w ho hnn

end RowReadsAs

/-- A row of the high nibble 8. -/
theorem rowReadsAs_of_eight (n : Nibble) {read : Word → Instr}
    (hrow : ∀ w, rowOf (read w) = some ⟨0xF00F, BitVec.ofNat 16 (0x8 * 4096 + n.val)⟩)
    (hread : ∀ w, nField w = n → decodeEight w = read w) : RowReadsAs 0xF00F (BitVec.ofNat 16 (0x8 * 4096 + n.val)) read :=
  rowReadsAs_of_op_n 0x8 n hrow fun w ho hn => by simp [decodeWord, ho, hread w hn]

/-- A row of the high nibble E. -/
theorem rowReadsAs_of_E (nn : Byte) {read : Word → Instr}
    (hrow : ∀ w, rowOf (read w) = some ⟨0xF0FF, BitVec.ofNat 16 (0xE * 4096 + nn.toNat)⟩)
    (hread : ∀ w, nnField w = nn → decodeE w = read w) : RowReadsAs 0xF0FF (BitVec.ofNat 16 (0xE * 4096 + nn.toNat)) read :=
  rowReadsAs_of_op_nn 0xE nn hrow fun w ho hnn => by simp [decodeWord, ho, hread w hnn]

/-- A row of the high nibble F. -/
theorem rowReadsAs_of_F (nn : Byte) {read : Word → Instr}
    (hrow : ∀ w, rowOf (read w) = some ⟨0xF0FF, BitVec.ofNat 16 (0xF * 4096 + nn.toNat)⟩)
    (hread : ∀ w, nnField w = nn → decodeF w = read w) : RowReadsAs 0xF0FF (BitVec.ofNat 16 (0xF * 4096 + nn.toNat)) read :=
  rowReadsAs_of_op_nn 0xF nn hrow fun w ho hnn => by simp [decodeWord, ho, hread w hnn]

/-- A word that no row selects is read as the no-op (R92): the instruction it is read as has no row. -/
theorem decodeWord_eq_noop {w : Word} (h : ∀ r ∈ opcodeRows, w &&& r.mask ≠ r.pattern) : decodeWord w = .noop w := by
  cases hrow : rowOf (decodeWord w) with
  | none => exact decodeWord_eq_noop_of_rowOf hrow
  | some r => exact absurd (beq_iff_eq.1 (selects_of_rowOf_decodeWord hrow)) (h r (rowOf_mem hrow))

/-- Settles O3, row by row: the words with a row's fixed fields are read as its instruction, and a word read as an instruction is one
that the instruction's row selects. -/
theorem opcodeMapIsReadByMaskAndMatch : Obligations.OpcodeMapIsReadByMaskAndMatch := by
  refine ⟨⟨?_, ?_, ?_, ?_, ?_, ?_, ?_, ?_, ?_⟩, ⟨?_, ?_, ?_, ?_, ?_, ?_, ?_, ?_, ?_⟩, ⟨?_, ?_, ?_, ?_, ?_, ?_, ?_, ?_, ?_, ?_⟩,
    fun _ => decodeWord_eq_noop⟩
  · exact rowReadsAs_of_word (fun _ => rfl) rfl
  · exact rowReadsAs_of_word (fun _ => rfl) rfl
  · exact rowReadsAs_of_op 0x1 (fun _ => rfl) fun w ho => by simp [decodeWord, ho]
  · exact rowReadsAs_of_op 0x2 (fun _ => rfl) fun w ho => by simp [decodeWord, ho]
  · exact rowReadsAs_of_op 0x3 (fun _ => rfl) fun w ho => by simp [decodeWord, ho]
  · exact rowReadsAs_of_op 0x4 (fun _ => rfl) fun w ho => by simp [decodeWord, ho]
  · exact rowReadsAs_of_op_n 0x5 0 (fun _ => rfl) fun w ho hn => by simp [decodeWord, ho, hn]
  · exact rowReadsAs_of_op 0x6 (fun _ => rfl) fun w ho => by simp [decodeWord, ho]
  · exact rowReadsAs_of_op 0x7 (fun _ => rfl) fun w ho => by simp [decodeWord, ho]
  · exact rowReadsAs_of_eight 0 (fun _ => rfl) fun w hn => by simp [decodeEight, hn]
  · exact rowReadsAs_of_eight 1 (fun _ => rfl) fun w hn => by simp [decodeEight, hn]
  · exact rowReadsAs_of_eight 2 (fun _ => rfl) fun w hn => by simp [decodeEight, hn]
  · exact rowReadsAs_of_eight 3 (fun _ => rfl) fun w hn => by simp [decodeEight, hn]
  · exact rowReadsAs_of_eight 4 (fun _ => rfl) fun w hn => by simp [decodeEight, hn]
  · exact rowReadsAs_of_eight 5 (fun _ => rfl) fun w hn => by simp [decodeEight, hn]
  · exact rowReadsAs_of_op 0xA (fun _ => rfl) fun w ho => by simp [decodeWord, ho]
  · exact rowReadsAs_of_op 0xC (fun _ => rfl) fun w ho => by simp [decodeWord, ho]
  · exact rowReadsAs_of_op 0xD (fun _ => rfl) fun w ho => by simp [decodeWord, ho]
  · exact rowReadsAs_of_E 0x9E (fun _ => rfl) fun w hnn => by simp [decodeE, hnn]
  · exact rowReadsAs_of_E 0xA1 (fun _ => rfl) fun w hnn => by simp [decodeE, hnn]
  · exact rowReadsAs_of_F 0x07 (fun _ => rfl) fun w hnn => by simp [decodeF, hnn]
  · exact rowReadsAs_of_F 0x15 (fun _ => rfl) fun w hnn => by simp [decodeF, hnn]
  · exact rowReadsAs_of_F 0x18 (fun _ => rfl) fun w hnn => by simp [decodeF, hnn]
  · exact rowReadsAs_of_F 0x1E (fun _ => rfl) fun w hnn => by simp [decodeF, hnn]
  · exact rowReadsAs_of_F 0x29 (fun _ => rfl) fun w hnn => by simp [decodeF, hnn]
  · exact rowReadsAs_of_F 0x33 (fun _ => rfl) fun w hnn => by simp [decodeF, hnn]
  · exact rowReadsAs_of_F 0x55 (fun _ => rfl) fun w hnn => by simp [decodeF, hnn]
  · exact rowReadsAs_of_F 0x65 (fun _ => rfl) fun w hnn => by simp [decodeF, hnn]

/-! ## The rows are disjoint -/

/-- Two different rows differ in a bit that both masks fix: a check of the 28 rows. -/
theorem opcodeRows_differ : ∀ r ∈ opcodeRows, ∀ q ∈ opcodeRows, r ≠ q →
    (r.mask &&& q.mask) &&& (r.pattern ^^^ q.pattern) ≠ 0 := by decide

/-- Two rows that select the same word agree in the bits that both masks fix. -/
theorem selects_agree {w : Word} {r q : OpcodeRow} (hr : r.selects w = true) (hq : q.selects w = true) :
    (r.mask &&& q.mask) &&& (r.pattern ^^^ q.pattern) = 0 := by
  have hrp : w &&& r.mask = r.pattern := beq_iff_eq.1 hr
  have hqp : w &&& q.mask = q.pattern := beq_iff_eq.1 hq
  rw [← hrp, ← hqp]
  ext k hk
  cases hw : w[k] <;> cases hm : r.mask[k] <;> simp [hw, hm]

theorem selects_unique {w : Word} {r q : OpcodeRow} (hr : r ∈ opcodeRows) (hq : q ∈ opcodeRows) (hrw : r.selects w = true)
    (hqw : q.selects w = true) : r = q :=
  by_contra fun hne => opcodeRows_differ r hr q hq hne (selects_agree hrw hqw)

/-- At most one row selects a word, so the order of the search does not matter. -/
theorem find?_selects_of_perm {rows : List OpcodeRow} (h : rows.Perm opcodeRows) (w : Word) :
    rows.find? (·.selects w) = opcodeRows.find? (·.selects w) :=
  List.find?_eq_find?_of_perm h fun _ hr _ hq =>
    selects_unique (h.mem_iff.1 hr.1) (h.mem_iff.1 hq.1) hr.2 hq.2

/-- The no-op is read exactly from the words that no row selects: by O3 a selected word is read as its row's instruction. -/
theorem decodeWord_eq_noop_iff (w : Word) : decodeWord w = .noop w ↔ ∀ r ∈ opcodeRows, r.selects w = false := by
  constructor
  · intro e
    have rows := opcodeMapIsReadByMaskAndMatch
    simp only [Obligations.OpcodeMapIsReadByMaskAndMatch, RowReadsAs] at rows
    simp only [opcodeRows, OpcodeRow.selects, List.forall_mem_append, List.forall_mem_cons, beq_eq_false_iff_ne, ne_eq, rows, e]
    simp
  · exact fun h => decodeWord_eq_noop fun r hr => beq_eq_false_iff_ne.1 (h r hr)

/-- Settles O4: a row's word has the bits the row fixes, so two rows that differ in a common one share no word. -/
theorem opcodeRowsAreDisjoint : Obligations.OpcodeRowsAreDisjoint :=
  ⟨opcodeRows_differ, fun _ _ hr _ hq => selects_unique hr hq, fun _ => find?_selects_of_perm, decodeWord_eq_noop_iff⟩

/-! ## The regions of the unassigned words -/

theorem isUnassigned_iff_decodeWord (w : Word) : isUnassigned w = true ↔ decodeWord w = .noop w := by
  rw [decodeWord_eq_noop_iff]
  simp [isUnassigned]

theorem decodeZero_eq_noop_iff (w : Word) : decodeZero w = .noop w ↔ w ≠ 0x00E0 ∧ w ≠ 0x00EE := by
  simp [decodeZero, ite_eq_iff]

theorem decodeEight_eq_noop_iff (w : Word) : decodeEight w = .noop w ↔ 6 ≤ (nField w).val := by
  unfold decodeEight
  split
  iterate 6 next hn => simp [hn]
  grind

theorem decodeE_eq_noop_iff (w : Word) : decodeE w = .noop w ↔ nnField w ∉ [(0x9E : Byte), 0xA1] := by
  simp [decodeE, ite_eq_iff]

theorem decodeF_eq_noop_iff (w : Word) :
    decodeF w = .noop w ↔ nnField w ∉ [(0x07 : Byte), 0x15, 0x18, 0x1E, 0x29, 0x33, 0x55, 0x65] := by
  simp [decodeF, ite_eq_iff]

/-- Settles O5: the unassigned words are those read as the no-op, and for each high nibble the decoder reads the no-op in its region. -/
theorem unassignedWordsLieInTheirRegions : Obligations.UnassignedWordsLieInTheirRegions := by
  intro w
  rw [isUnassigned_iff_decodeWord, decodeWord]
  match opField w with
  | 0x0 => simp [decodeZero_eq_noop_iff]
  | 0x1 | 0x2 | 0x3 | 0x4 | 0x6 | 0x7 | 0xA | 0xC | 0xD => simp
  | 0x5 => simp
  | 0x8 => simp [decodeEight_eq_noop_iff]
  | 0x9 | 0xB => simp
  | 0xE => simp [decodeE_eq_noop_iff]
  | 0xF => simp [decodeF_eq_noop_iff]
  | ⟨k + 16, hk⟩ => omega

/-! ## The step at PC -/

theorem decodeBytes_pair_eq_ok {hi lo : Byte} {i : Instr} (h : decodeBytes [hi, lo] = .ok (i, [])) :
    decodeWord (wordOfBytes hi lo) = i := by
  injection h with h
  exact congrArg Prod.fst h

/-- Settles O7: of the three ways a step can go, only the one that runs the fetched word is left. -/
theorem stepRunsTheInstructionAtPc : Obligations.StepRunsTheInstructionAtPc := by
  intro s i hv hpc hbytes
  have hi : decodeWord s.fetchWord = i := decodeBytes_pair_eq_ok hbytes
  obtain ⟨hfault, -⟩ | ⟨-, hhigh, -⟩ | ⟨-, -, e⟩ := step_cases s
  · rw [hv] at hfault; contradiction
  · exact absurd hpc (Nat.not_le.2 hhigh)
  · rw [e, hi]

end Sys2Proof.Machine
end

section
/-! PROOFS. The family of 40_flow.md: RET, JP, CALL (R100-R102), the compare skips (R103-R105) and the bytes a skip passes (R106). -/

namespace Sys2Proof.Machine

/-! ## Frames of the pieces that control flow writes -/

section Frames
variable {changed more : List Piece} {s t u : State}

/-- Two frames one after the other: what either lists may have changed. -/
theorem KeepsAllBut.append (h : KeepsAllBut changed s t) (h' : KeepsAllBut more t u) : KeepsAllBut (changed ++ more) s u :=
  fun p hp => (h p (fun hm => hp (List.mem_append_left _ hm))).trans (h' p (fun hm => hp (List.mem_append_right _ hm)))

theorem keepsAllBut_withPc (s : State) (a : Word) : KeepsAllBut [.pc] s { s with pc := a } := by
  intro p hp
  cases p with
  | pc => exact absurd (List.mem_singleton.2 rfl) hp
  | regs | mem => exact fun _ => rfl
  | _ => rfl

theorem keepsAllBut_withStack (s : State) (l : List Word) : KeepsAllBut [.stack] s { s with stack := l } := by
  intro p hp
  cases p with
  | stack => exact absurd (List.mem_singleton.2 rfl) hp
  | regs | mem => exact fun _ => rfl
  | _ => rfl

theorem keepsAllBut_withPcStack (s : State) (a : Word) (l : List Word) :
    KeepsAllBut [.pc, .stack] s { s with pc := a, stack := l } :=
  (keepsAllBut_withPc s a).append (keepsAllBut_withStack _ l)

end Frames

/-! ## The step from a state without a fault -/

section Step
variable {s : State}

theorem step_eq_exec (hv : s.fault.valid = false) (hpc : s.pc.toNat ≤ 0xFFE) : step s = exec (decodeWord s.fetchWord) s :=
  stepRunsTheInstructionAtPc s _ hv hpc rfl

/-- A fetch outside the array faults (20_memory.md R56). -/
theorem step_boundsFetch (hv : s.fault.valid = false) (hpc : 0xFFE < s.pc.toNat) :
    ∃ u, step s = .next u ∧ FaultEntered 1 s u := by
  obtain ⟨hfault, -⟩ | ⟨-, -, e⟩ | ⟨-, hlow, -⟩ := step_cases s
  · rw [hv] at hfault; contradiction
  · exact ⟨_, e, rfl⟩
  · exact absurd hlow (Nat.not_le.2 hpc)

end Step

/-! ## RET, JP and CALL -/

section Flow
variable {s : State}

theorem exec_ret_of_entry {l : List Word} {a : Word} (h : s.stack = l ++ [a]) :
    exec .ret s = .next { s with pc := a, stack := l } := by
  have hpop : s.fetched.pop = some (a, { s.fetched with stack := l }) := (State.pop_eq_some _ _ _).2 ⟨h, rfl⟩
  show execRet s = _
  rw [execRet, hpop]
  rfl

theorem exec_ret_of_empty (h : s.stack = []) : exec .ret s = .next (s.faulted .stackUnderflow) := by
  have hpop : s.fetched.pop = none := (State.pop_eq_none _).2 h
  show execRet s = _
  rw [execRet, hpop]
  rfl

theorem exec_jp (nnn : Addr) (s : State) : exec (.jp nnn) s = .next { s with pc := zext16 nnn } := rfl

theorem exec_call_of_room (nnn : Addr) (h : s.params.stackDepth ≠ some s.stack.length) :
    exec (.call nnn) s = .next { s with pc := zext16 nnn, stack := s.stack ++ [s.pc + 2] } :=
  if_neg (mt s.stackFull_iff.1 h)

theorem exec_call_of_full (nnn : Addr) (h : s.params.stackDepth = some s.stack.length) :
    exec (.call nnn) s = .next (s.faulted .stackOverflow) :=
  if_pos (s.stackFull_iff.2 h)

end Flow

/-- Settles O21: a pop takes the last entry, which goes to PC as it is, and fails on an empty stack. -/
theorem returnPopsOrUnderflows : Obligations.ReturnPopsOrUnderflows := by
  obtain ⟨⟨-, hrow, -⟩, -⟩ := opcodeMapIsReadByMaskAndMatch
  refine ⟨hrow, fun s rest a h => ?_, fun s h => ⟨_, exec_ret_of_empty h, rfl⟩⟩
  exact ⟨_, exec_ret_of_entry h, rfl, rfl, keepsAllBut_withPcStack s a rest, fun hv ha => step_boundsFetch hv ha⟩

/-- Settles O22: the target is the new PC, so a jump to its own address writes the PC there is. -/
theorem jumpGoesToNnn : Obligations.JumpGoesToNnn := by
  obtain ⟨⟨-, -, hrow, -⟩, -⟩ := opcodeMapIsReadByMaskAndMatch
  refine ⟨hrow, fun nnn s => ⟨_, exec_jp nnn s, zext16_toNat nnn, keepsAllBut_withPc s _, fun h => ?_⟩⟩
  have hpc : zext16 nnn = s.pc := BitVec.eq_of_toNat_eq ((zext16_toNat nnn).trans h.symm)
  rw [hpc]

/-- Settles O23: the entry that CALL pushes is the one that RET pops. -/
theorem callPushesOrOverflows : Obligations.CallPushesOrOverflows := by
  obtain ⟨⟨-, -, -, hrow, -⟩, -⟩ := opcodeMapIsReadByMaskAndMatch
  refine ⟨hrow, fun nnn s h => ?_, fun nnn s h => ⟨_, exec_call_of_full nnn h, rfl⟩⟩
  exact ⟨_, exec_call_of_room nnn h, rfl, zext16_toNat nnn, keepsAllBut_withPcStack s _ _,
    _, exec_ret_of_entry rfl, rfl, rfl, keepsAllBut_withPc s _⟩

/-! ## A CALL to its own address -/

/-- The word at PC is a CALL to PC, and the next step runs it. -/
structure State.AtSelfCall (s : State) : Prop where
  noFault : s.fault.valid = false
  canFetch : s.pc.toNat ≤ 0xFFE
  word : s.fetchWord = 0x2000 ||| s.pc

section SelfCall
variable {s : State}

/-- A push leaves the word at PC, and PC, as they are. -/
theorem State.AtSelfCall.withStack (h : s.AtSelfCall) (l : List Word) : State.AtSelfCall { s with stack := l } := { h with }

/-- The word of a CALL to a 12-bit address (30_encoding.md R86). -/
theorem or_2000_eq_packNnn (nnn : Addr) : 0x2000 ||| zext16 nnn = packNnn 0x2 nnn := by
  have hlt := nnn.isLt
  apply BitVec.eq_of_toNat_eq
  rw [packNnn_toNat, BitVec.toNat_or, zext16_toNat]
  exact (Nat.shiftLeft_add_eq_or_of_lt hlt 2).symm

theorem decodeWord_packNnn_call (nnn : Addr) : decodeWord (packNnn 0x2 nnn) = .call nnn := by simp [decodeWord]

theorem State.AtSelfCall.step_eq (h : s.AtSelfCall) : ∃ nnn, zext16 nnn = s.pc ∧ step s = exec (.call nnn) s := by
  have hpc : zext16 (s.pc.setWidth 12) = s.pc := by
    have := h.canFetch
    apply BitVec.eq_of_toNat_eq
    rw [zext16_toNat, BitVec.toNat_setWidth]
    omega
  have hword : s.fetchWord = packNnn 0x2 (s.pc.setWidth 12) := by rw [← or_2000_eq_packNnn, hpc, h.word]
  exact ⟨_, hpc, by rw [step_eq_exec h.noFault h.canFetch, hword, decodeWord_packNnn_call]⟩

theorem State.AtSelfCall.step_of_room (h : s.AtSelfCall) (hroom : s.params.stackDepth ≠ some s.stack.length) :
    step s = .next { s with stack := s.stack ++ [s.pc + 2] } := by
  obtain ⟨nnn, hpc, e⟩ := h.step_eq
  rw [e, exec_call_of_room nnn hroom, hpc]

theorem State.AtSelfCall.step_of_full (h : s.AtSelfCall) (hfull : s.params.stackDepth = some s.stack.length) :
    step s = .next (s.faulted .stackOverflow) := by
  obtain ⟨nnn, -, e⟩ := h.step_eq
  rw [e, exec_call_of_full nnn hfull]

/-- With room for `n` entries, `n` steps push the same return address `n` times. -/
theorem State.AtSelfCall.runFor_eq (n : Nat) (h : s.AtSelfCall) (hroom : s.params.stackDepth = some (s.stack.length + n)) :
    runFor n s = .next { s with stack := s.stack ++ List.replicate n (s.pc + 2) } := by
  induction n generalizing s with
  | zero => simp
  | succ n ih =>
    have hstep := h.step_of_room (by rw [hroom]; simp)
    rw [runFor_succ n hstep, ih (h.withStack _) (by simpa [Nat.add_assoc, Nat.add_comm] using hroom)]
    simp [List.replicate_succ]

end SelfCall

/-- Settles O24: the entries left are filled by as many pushes, and the CALL after them finds the stack full. -/
theorem callToItselfFillsTheStack : Obligations.CallToItselfFillsTheStack := by
  intro s d hv hpc hword hd hle
  have h : s.AtSelfCall := ⟨hv, hpc, hword⟩
  have hroom : s.params.stackDepth = some (s.stack.length + (d - s.stack.length)) := by rw [Nat.add_sub_cancel' hle, hd]
  refine ⟨_, _, h.runFor_eq _ hroom, rfl, keepsAllBut_withStack s _, (h.withStack _).step_of_full ?_, rfl⟩
  rw [hroom, List.length_append, List.length_replicate]

/-! ## Skips -/

section Skips
variable {s : State}

theorem fetched_skipIf_eq (s : State) (b : Bool) :
    s.fetched.skipIf b = { s with pc := if b then s.pc + 4 else s.pc + 2 } := by
  cases b with
  | false => rfl
  | true => exact congrArg (fun a => { s with pc := a }) (BitVec.add_assoc s.pc 2 2)

/-- A skip on a Boolean that decides `c` (40_flow.md R106). -/
theorem skipsWhen_skipIf {c : Prop} {b : Bool} (hc : b = true ↔ c) : SkipsWhen c s (s.fetched.skipIf b) := by
  rw [fetched_skipIf_eq]
  exact ⟨fun h => if_pos (hc.2 h), fun h => if_neg (mt hc.1 h), keepsAllBut_withPc s _⟩

theorem exec_of_skipTaken {i : Instr} (h : SkipTaken i s) : exec i s = .next { s with pc := s.pc + 4 } := by
  have htaken : s.fetched.skipIf true = { s with pc := s.pc + 4 } := fetched_skipIf_eq s true
  rw [← htaken]
  obtain ⟨x, nn, rfl, h⟩ | ⟨x, nn, rfl, h⟩ | ⟨x, y, rfl, h⟩ | ⟨x, rfl, h⟩ | ⟨x, rfl, h⟩ := h
  · simp [exec, execSeImm, h]
  · simp [exec, execSneImm, bne_iff_ne.2 h]
  · simp [exec, execSeReg, h]
  · simp [exec, execSkp, State.keyAt, h]
  · simp [exec, execSknp, State.keyAt, h]

end Skips

/-- Settles O25: each compare skip decides its comparison. -/
theorem compareSkipsSkipWhenTheyHold : Obligations.CompareSkipsSkipWhenTheyHold := by
  obtain ⟨⟨-, -, -, -, hseImm, hsneImm, hseReg, -⟩, -⟩ := opcodeMapIsReadByMaskAndMatch
  exact ⟨hseImm, hsneImm, hseReg, fun x y nn s => ⟨⟨_, rfl, skipsWhen_skipIf beq_iff_eq⟩,
    ⟨_, rfl, skipsWhen_skipIf bne_iff_ne⟩, _, rfl, skipsWhen_skipIf beq_iff_eq⟩⟩

/-- Settles O26: a taken skip ends at PC + 4, which is past the last fetchable PC from 0xFFB up. -/
theorem aTakenSkipPassesTwoBytes : Obligations.ATakenSkipPassesTwoBytes := by
  intro i s htaken hpc
  have hpc4 : (s.pc + 4).toNat = s.pc.toNat + 4 := by bv_omega
  refine ⟨_, exec_of_skipTaken htaken, hpc4, keepsAllBut_withPc s _, fun hv hhigh => step_boundsFetch hv ?_⟩
  show 0xFFE < (s.pc + 4).toNat
  omega

end Sys2Proof.Machine
end

section
/-! PROOFS. The family of 41_alu.md: register loads, arithmetic and logic (R120-R127), and the words 8xy6 to 8xyF (R130). -/

namespace Sys2Proof.Machine

/-! ## Frames of the instructions that write registers -/

section Frames
variable (s : State) (x : Nibble) (b flag : Byte)

theorem keepsAllBut_withRegs (v : Vector Byte 16) : KeepsAllBut [.regs] s { s with v := v } := by
  intro p hp
  cases p with
  | regs => exact absurd (List.mem_singleton.2 rfl) hp
  | mem => exact fun _ => rfl
  | _ => rfl

theorem keepsAllBut_withRegsPc (v : Vector Byte 16) (a : Word) : KeepsAllBut [.regs, .pc] s { s with v := v, pc := a } :=
  (keepsAllBut_withRegs s v).append (keepsAllBut_withPc _ a)

/-- The fetch increment and one register write. -/
theorem writesRegister_fetched_setV : WritesRegister x b s (s.fetched.setV x b) :=
  ⟨by simp, fun j hj => by simp [hj], rfl, keepsAllBut_withRegsPc s _ _⟩

/-- The state after an instruction that writes VF and then V[x] (41_alu.md R126, R127). -/
def State.flagThenResult : State := (s.fetched.setV vf flag).setV x b

@[simp] theorem State.flagThenResult_getV_self : (s.flagThenResult x b flag).getV x = b := by
  simp [State.flagThenResult]

/-- The flag survives the write of V[x], unless x = F. -/
theorem State.flagThenResult_getV_vf {x : Nibble} (hx : x ≠ vf) : (s.flagThenResult x b flag).getV vf = flag := by
  simp [State.flagThenResult, hx.symm]

/-- What R126 and R127 leave unchanged. -/
theorem State.flagThenResult_frame :
    (∀ j, j ≠ x → j ≠ vf → (s.flagThenResult x b flag).getV j = s.getV j) ∧ (s.flagThenResult x b flag).pc = s.pc + 2 ∧
      KeepsAllBut [.regs, .pc] s (s.flagThenResult x b flag) :=
  ⟨fun j hj hvf => by simp [State.flagThenResult, hj, hvf], rfl, keepsAllBut_withRegsPc s _ _⟩

end Frames

/-! ## Byte arithmetic and the flags, as numbers -/

section Bytes
variable {a b f : Byte}

theorem byte_add_eq_ofNat (a b : Byte) : a + b = BitVec.ofNat 8 ((a.toNat + b.toNat) % 256) := by
  apply BitVec.eq_of_toNat_eq
  rw [BitVec.toNat_add, BitVec.toNat_ofNat]
  omega

theorem byte_sub_toNat (a b : Byte) : (a - b).toNat = (a.toNat + 256 - b.toNat) % 256 := by
  have := b.isLt
  rw [BitVec.toNat_sub]
  omega

theorem carryFlag_of_gt {sum : Nat} (h : sum > 255) : carryFlag sum = 1 := if_pos h

theorem carryFlag_of_le {sum : Nat} (h : sum ≤ 255) : carryFlag sum = 0 := if_neg (Nat.not_lt.2 h)

theorem eq_greaterFlag (hgt : a.toNat > b.toNat → f = 1) (hle : a.toNat ≤ b.toNat → f = 0) : f = greaterFlag a b := by
  unfold greaterFlag
  split
  · next h => exact hgt h
  · next h => exact hle (Nat.le_of_not_gt h)

end Bytes

/-! ## The flag instructions and the no-op -/

theorem exec_addReg (x y : Nibble) (s : State) :
    exec (.addReg x y) s = .next (s.flagThenResult x (BitVec.ofNat 8 (byteSum (s.getV x) (s.getV y)))
      (carryFlag (byteSum (s.getV x) (s.getV y)))) := rfl

/-- What the subtraction of 8xy5 reads from register `j`: the new flag, where `j` is F (92_eei_decisions.md D8). -/
def subOperand (s : State) (flag : Byte) (j : Nibble) : Byte := if j = vf then flag else s.getV j

theorem subOperand_vf (s : State) (f : Byte) : subOperand s f vf = f := if_pos rfl

theorem subOperand_of_ne (s : State) (f : Byte) {j : Nibble} (h : j ≠ vf) : subOperand s f j = s.getV j := if_neg h

theorem exec_subReg (x y : Nibble) (s : State) {f : Byte} (hf : f = greaterFlag (s.getV x) (s.getV y)) :
    exec (.subReg x y) s = .next (s.flagThenResult x (subOperand s f x - subOperand s f y) f) := by
  show execSubReg x y s = _
  simp only [execSubReg, State.getV_setV, State.getV_fetched, ← hf]
  rfl

theorem exec_noop (w : Word) (s : State) : exec (.noop w) s = .next { s with pc := s.pc + 2 } := rfl

/-! ## The statements -/

/-- Settles O14: the immediate goes to the one register written. -/
theorem loadImmediateWritesVx : Obligations.LoadImmediateWritesVx := by
  obtain ⟨⟨-, -, -, -, -, -, -, hrow, -⟩, -⟩ := opcodeMapIsReadByMaskAndMatch
  exact ⟨hrow, fun x nn s => ⟨_, rfl, writesRegister_fetched_setV s x nn⟩⟩

/-- Settles O15: the model's sum of bytes is the sum mod 256. -/
theorem addImmediateWrapsWithoutFlag : Obligations.AddImmediateWrapsWithoutFlag := by
  obtain ⟨⟨-, -, -, -, -, -, -, -, hrow⟩, -⟩ := opcodeMapIsReadByMaskAndMatch
  refine ⟨hrow, fun x nn s => ⟨_, rfl, ?_⟩⟩
  rw [← byte_add_eq_ofNat]
  exact writesRegister_fetched_setV s x _

/-- Settles O16: the fetch increment changes no register, so the copy is of the old V[y]. -/
theorem copyRegisterWritesVx : Obligations.CopyRegisterWritesVx := by
  obtain ⟨-, ⟨hrow, -⟩, -⟩ := opcodeMapIsReadByMaskAndMatch
  exact ⟨hrow, fun x y s => ⟨_, rfl, writesRegister_fetched_setV s x _⟩⟩

/-- Settles O17: each writes one register, and its byte is pinned bit by bit. -/
theorem logicOperationsWriteVxAlone : Obligations.LogicOperationsWriteVxAlone := by
  obtain ⟨-, ⟨-, hor, hand, hxor, -⟩, -⟩ := opcodeMapIsReadByMaskAndMatch
  refine ⟨hor, hand, hxor, fun x y s => ⟨?_, ?_, ?_⟩⟩
  · exact ⟨_, _, rfl, writesRegister_fetched_setV s x _, fun _ _ => BitVec.getLsbD_or⟩
  · exact ⟨_, _, rfl, writesRegister_fetched_setV s x _, fun _ _ => BitVec.getLsbD_and⟩
  · exact ⟨_, _, rfl, writesRegister_fetched_setV s x _, fun _ _ => BitVec.getLsbD_xor⟩

/-- Settles O18: both writes take the sum of the old registers, and V[x] is written last. -/
theorem addRegistersSetsCarry : Obligations.AddRegistersSetsCarry := by
  obtain ⟨-, ⟨-, -, -, -, hrow, -⟩, -⟩ := opcodeMapIsReadByMaskAndMatch
  refine ⟨hrow, fun x y s => ⟨_, exec_addReg x y s, ?_, fun hx => ?_, State.flagThenResult_frame s x _ _⟩⟩
  · rw [State.flagThenResult_getV_self, BitVec.toNat_ofNat]
    rfl
  · rw [State.flagThenResult_getV_vf _ _ _ hx]
    exact ⟨carryFlag_of_gt, carryFlag_of_le⟩

/-- Settles O19: the result is the difference of the operands as the write of VF left them, and it is written over VF where x = F. -/
theorem subtractSetsGreaterFlagFirst : Obligations.SubtractSetsGreaterFlagFirst := by
  obtain ⟨-, ⟨-, -, -, -, -, hrow, -⟩, -⟩ := opcodeMapIsReadByMaskAndMatch
  refine ⟨hrow, fun x y s f hgt hle => ⟨_, exec_subReg x y s (eq_greaterFlag hgt hle), ?_, ?_, ?_, ?_,
    State.flagThenResult_frame s x _ _⟩⟩
  · intro hx hy
    rw [State.flagThenResult_getV_vf _ _ _ hx, State.flagThenResult_getV_self, subOperand_of_ne s f hx, subOperand_of_ne s f hy]
    exact ⟨rfl, byte_sub_toNat _ _⟩
  · rintro hx rfl
    rw [State.flagThenResult_getV_vf _ _ _ hx, State.flagThenResult_getV_self, subOperand_of_ne s f hx, subOperand_vf]
    exact ⟨rfl, byte_sub_toNat _ _⟩
  · rintro rfl hy
    rw [State.flagThenResult_getV_self, subOperand_vf, subOperand_of_ne s f hy]
    exact byte_sub_toNat _ _
  · rintro rfl rfl
    rw [State.flagThenResult_getV_self]
    exact BitVec.sub_self _

/-- Settles O40: these words lie in the region of high nibble 8 of the unassigned words. -/
theorem shiftWordsAreNoops : Obligations.ShiftWordsAreNoops := by
  intro w s ho hn
  have hunassigned : isUnassigned w = true := (unassignedWordsLieInTheirRegions w).2 (.inr (.inr (.inl ⟨ho, hn⟩)))
  rw [(isUnassigned_iff_decodeWord w).1 hunassigned]
  exact ⟨_, exec_noop w s, rfl, keepsAllBut_withPc s _⟩

end Sys2Proof.Machine
end

section
/-! PROOFS. The family of 42_index_memory.md: the writes of I (R140-R142), and the store of digits, the store and the load of registers
(R143-R145), which check their whole range first and leave I as it is (R146). -/

namespace Sys2Proof.Machine

/-! ## Frames of the instructions that write I or memory -/

section Frames
variable (s : State)

theorem keepsAllBut_withIndex (i : Word) : KeepsAllBut [.index] s { s with i := i } := by
  intro p hp
  cases p with
  | index => exact absurd (List.mem_singleton.2 rfl) hp
  | regs | mem => exact fun _ => rfl
  | _ => rfl

theorem keepsAllBut_withMem (m : Memory) : KeepsAllBut [.mem] s { s with mem := m } := by
  intro p hp
  cases p with
  | mem => exact absurd (List.mem_singleton.2 rfl) hp
  | regs => exact fun _ => rfl
  | _ => rfl

/-- What an instruction that writes I leaves. -/
theorem fetched_setI_frame (i : Word) : (s.fetched.setI i).pc = s.pc + 2 ∧ KeepsAllBut [.index, .pc] s (s.fetched.setI i) :=
  ⟨rfl, (keepsAllBut_withIndex s i).append (keepsAllBut_withPc _ _)⟩

end Frames

/-! ## The bytes a store leaves, and the next fetch -/

section Stores
variable (s : State) (a : Nat) (bytes : List Byte)

theorem holdsBytes_storeBytes : HoldsBytes (s.storeBytes a bytes) a bytes :=
  fun k hk => s.readByte_storeBytes_inside a k bytes hk

/-- What an instruction that stores `bytes` at `a` leaves. -/
theorem fetched_storeBytes_frame :
    KeepsMemoryOutside a bytes.length s (s.fetched.storeBytes a bytes) ∧ (s.fetched.storeBytes a bytes).pc = s.pc + 2 ∧
      KeepsAllBut [.mem, .pc] s (s.fetched.storeBytes a bytes) :=
  ⟨fun b hb => s.fetched.readByte_storeBytes_outside a b bytes hb, rfl,
    (keepsAllBut_withMem s _).append (keepsAllBut_withPc _ _)⟩

/-- Fx55 stores x + 1 registers. -/
theorem length_take_registers (x : Nibble) : (s.v.toList.take (x.val + 1)).length = x.val + 1 := by simp

/-- The registers that Fx55 stores are V0 and those after it. -/
theorem getElem_take_registers (n : Nat) (k : Nibble) (h : k.val < (s.v.toList.take n).length) :
    (s.v.toList.take n)[k.val] = s.getV k := by
  rw [List.getElem_take, Vector.getElem_toList]
  rfl

end Stores

section Reads
variable {t : State} {a : Nat}

theorem HoldsBytes.fetchWord_eq {hi lo : Byte} {rest : List Byte} (h : HoldsBytes t a (hi :: lo :: rest))
    (hpc : t.pc.toNat = a) : t.fetchWord = wordOfBytes hi lo := by
  subst hpc
  have hhi : t.readByte t.pc.toNat = hi := h 0 (by simp)
  have hlo : t.readByte (t.pc.toNat + 1) = lo := h 1 (by simp)
  rw [State.fetchWord, hhi, hlo]

/-- Each digit fits in the byte that holds it. -/
theorem HoldsBytes.bcdDigits_toNat {b : Byte} (h : HoldsBytes t a (bcdDigits b)) :
    (t.readByte a).toNat = b.toNat / 100 ∧ (t.readByte (a + 1)).toNat = b.toNat / 10 % 10 ∧
      (t.readByte (a + 2)).toNat = b.toNat % 10 := by
  have hlt := b.isLt
  have hundreds : t.readByte a = BitVec.ofNat 8 (b.toNat / 100) := h 0 (by simp)
  have tens : t.readByte (a + 1) = BitVec.ofNat 8 (b.toNat / 10 % 10) := h 1 (by simp)
  have ones : t.readByte (a + 2) = BitVec.ofNat 8 (b.toNat % 10) := h 2 (by simp)
  rw [hundreds, tens, ones]
  exact ⟨Nat.mod_eq_of_lt (by omega), Nat.mod_eq_of_lt (by omega), Nat.mod_eq_of_lt (by omega)⟩

end Reads

/-! ## Values and bounds -/

theorem indexSum_toNat (i : Word) (b : Byte) : (indexSum i b).toNat = (i.toNat + b.toNat) % 4096 :=
  Nat.mod_eq_of_lt (by omega)

theorem glyphAddr_toNat (b : Byte) : (glyphAddr b).toNat = 0x050 + b.toNat * 5 := by
  have := b.isLt
  exact Nat.mod_eq_of_lt (by rw [fontBase]; omega)

section Bounds
variable {last : Nat}

theorem guarded_of_le {o p : StepOutcome} (h : last ≤ 0xFFF) : (if inBounds last then o else p) = o :=
  if_pos ((inBounds_iff last).2 h)

/-- An access past the end of the array enters BOUNDS_DATA (60_exceptions.md R212). -/
theorem guarded_of_gt {o : StepOutcome} {s : State} (h : last > 0xFFF) :
    ∃ t, (if inBounds last then o else raiseFault .boundsData s) = .next t ∧ FaultEntered 2 s t :=
  ⟨s.faulted .boundsData, if_neg (mt (inBounds_iff last).1 (Nat.not_le.2 h)), rfl⟩

end Bounds

/-! ## The loads and stores whose range fits -/

section InBounds
variable {s : State} {x : Nibble}

theorem exec_ldB_of_le (h : s.i.toNat + 2 ≤ 0xFFF) :
    exec (.ldB x) s = .next (s.fetched.storeBytes s.i.toNat (bcdDigits (s.getV x))) := guarded_of_le h

theorem exec_storeRegs_of_le (h : s.i.toNat + x.val ≤ 0xFFF) :
    exec (.storeRegs x) s = .next (s.fetched.storeBytes s.i.toNat (s.v.toList.take (x.val + 1))) := guarded_of_le h

theorem exec_loadRegs_of_le (h : s.i.toNat + x.val ≤ 0xFFF) :
    exec (.loadRegs x) s = .next (s.fetched.loadRange s.i.toNat x) := guarded_of_le h

end InBounds

/-! ## The statements -/

/-- Settles O27: the 12-bit address goes to I, zero-extended. -/
theorem loadIndexWritesNnn : Obligations.LoadIndexWritesNnn := by
  obtain ⟨-, ⟨-, -, -, -, -, -, hrow, -⟩, -⟩ := opcodeMapIsReadByMaskAndMatch
  exact ⟨hrow, fun nnn s => ⟨_, rfl, zext16_toNat nnn, fetched_setI_frame s _⟩⟩

/-- Settles O28: the sum mod 4096 fits in I, and I is the one register written. -/
theorem addToIndexWrapsAt12Bits : Obligations.AddToIndexWrapsAt12Bits := by
  obtain ⟨-, -, ⟨-, -, -, -, -, hrow, -⟩, -⟩ := opcodeMapIsReadByMaskAndMatch
  exact ⟨hrow, fun x s => ⟨_, rfl, indexSum_toNat _ _, fetched_setI_frame s _⟩⟩

/-- Settles O29: the address of the glyph of 0xFF is still in the array, so the word does not cut it. -/
theorem fontAddressUsesTheWholeByte : Obligations.FontAddressUsesTheWholeByte := by
  obtain ⟨-, -, ⟨-, -, -, -, -, -, hrow, -⟩, -⟩ := opcodeMapIsReadByMaskAndMatch
  exact ⟨hrow, fun x s => ⟨_, rfl, glyphAddr_toNat _, glyphAddr_le _, fetched_setI_frame s _⟩⟩

/-- Settles O30: memory at I holds the digits, and each digit fits in its byte. Where I is the new PC, the next fetch reads the first
two of them. -/
theorem bcdStoreWritesThreeDigits : Obligations.BcdStoreWritesThreeDigits := by
  obtain ⟨-, -, ⟨-, -, -, -, -, -, -, hrow, -⟩, -⟩ := opcodeMapIsReadByMaskAndMatch
  refine ⟨hrow, fun x s h => ⟨_, exec_ldB_of_le h, ?_⟩, fun x s h => guarded_of_gt h⟩
  have hholds := holdsBytes_storeBytes s.fetched s.i.toNat (bcdDigits (s.getV x))
  obtain ⟨hundreds, tens, ones⟩ := hholds.bcdDigits_toNat
  obtain ⟨hout, hpc, hframe⟩ := fetched_storeBytes_frame s s.i.toNat (bcdDigits (s.getV x))
  refine ⟨hundreds, tens, ones, hout, hpc, hframe, fun hi => hholds.fetchWord_eq ?_⟩
  rw [hpc, hi]

/-- Settles O31: memory at I holds the first x + 1 registers. -/
theorem storeRegistersWritesTheRange : Obligations.StoreRegistersWritesTheRange := by
  obtain ⟨-, -, ⟨-, -, -, -, -, -, -, -, hrow, -⟩, -⟩ := opcodeMapIsReadByMaskAndMatch
  refine ⟨hrow, fun x s h => ⟨_, exec_storeRegs_of_le h, fun k hk => ?_, ?_⟩, fun x s h => guarded_of_gt h⟩
  · have hmem : k.val < (s.v.toList.take (x.val + 1)).length := by rw [length_take_registers]; omega
    exact (holdsBytes_storeBytes s.fetched _ _ k hmem).trans (getElem_take_registers s _ k hmem)
  · have hframe := fetched_storeBytes_frame s s.i.toNat (s.v.toList.take (x.val + 1))
    rwa [length_take_registers] at hframe

/-- Settles O32: a register up to x reads its byte, and a register above x its old value. -/
theorem loadRegistersReadsTheRange : Obligations.LoadRegistersReadsTheRange := by
  obtain ⟨-, -, ⟨-, -, -, -, -, -, -, -, -, hrow⟩, -⟩ := opcodeMapIsReadByMaskAndMatch
  refine ⟨hrow, fun x s h => ⟨_, exec_loadRegs_of_le h, fun k hk => ?_, fun k hk => ?_, rfl, keepsAllBut_withRegsPc s _ _⟩,
    fun x s h => guarded_of_gt h⟩
  · rw [State.getV_loadRange, if_pos hk, State.readByte_fetched]
  · rw [State.getV_loadRange, if_neg (Nat.not_le.2 hk), State.getV_fetched]

end Sys2Proof.Machine
end

section
/-! PROOFS. The family of 43_display.md: CLS (R160, R161), the draw as one XOR with the wrapped sprite mask (R163, R165), and DRW
(R162, R164). -/

namespace Sys2Proof.Machine

/-! ## The sprite mask as the visits of a draw -/

section Visits
variable {ox oy : Nat} {rows : List Byte} {d : Display}

theorem SpriteVisit.target_eq_iff (v : SpriteVisit) (c : Fin 64) (r : Fin 32) :
    v.target ox oy = (c, r) ↔ c.val = (ox + v.c) % 64 ∧ r.val = (oy + v.r) % 32 := by
  simp only [SpriteVisit.target, Prod.mk.injEq, Fin.ext_iff, Fin.val_ofNat, eq_comm]

/-- Two columns of one sprite row land on different columns (43_display.md R165). -/
theorem SpriteVisit.target_ne_of_column {v w : SpriteVisit} (hv : v.c < 8) (hw : w.c < 8) (hne : v.c ≠ w.c) :
    v.target ox oy ≠ w.target ox oy := by
  intro h
  obtain ⟨hcol, -⟩ := (v.target_eq_iff _ _).1 h
  have : (ox + w.c) % 64 = (ox + v.c) % 64 := hcol
  omega

/-- Two rows of a sprite of at most 32 rows land on different rows. -/
theorem SpriteVisit.target_ne_of_row {v w : SpriteVisit} (hlt : v.r < w.r) (hnear : w.r < v.r + 32) :
    v.target ox oy ≠ w.target ox oy := by
  intro h
  obtain ⟨-, hline⟩ := (v.target_eq_iff _ _).1 h
  have : (oy + w.r) % 32 = (oy + v.r) % 32 := hline
  omega

/-- No two visits of one draw land on the same cell (R165). -/
theorem pairwise_target_spriteVisits (r : Nat) (h : rows.length ≤ 32) :
    (spriteVisits r rows).Pairwise fun v w => v.target ox oy ≠ w.target ox oy := by
  induction rows generalizing r with
  | nil => exact .nil
  | cons row rows ih =>
    rw [List.length_cons] at h
    refine List.pairwise_append.2 ⟨List.pairwise_map.2 ?_, ih (r + 1) (by omega), ?_⟩
    · refine List.pairwise_lt_range.imp_of_mem fun {c c'} hc hc' hlt => ?_
      exact SpriteVisit.target_ne_of_column (List.mem_range.1 hc) (List.mem_range.1 hc') (Nat.ne_of_lt hlt)
    · intro v hv w hw
      obtain ⟨c, -, rfl⟩ := List.mem_map.1 hv
      obtain ⟨k, hk, hr, -, -⟩ := (mem_spriteVisits _ _ w).1 hw
      exact SpriteVisit.target_ne_of_row (by simp only; omega) (by simp only; omega)

/-- The mask of R165 covers the cells that a visit with a 1 bit lands on. -/
theorem spriteCovers_iff_visit (c : Fin 64) (r : Fin 32) :
    SpriteCovers ox oy rows c r ↔ ∃ v ∈ spriteVisits 0 rows, v.isOn = true ∧ v.target ox oy = (c, r) := by
  constructor
  · rintro ⟨k, j, hk, hj, hbit, hc, hr⟩
    refine ⟨⟨k, rows[k], j⟩, (mem_spriteVisits _ _ _).2 ⟨k, hk, (Nat.zero_add k).symm, rfl, hj⟩, hbit, ?_⟩
    exact (SpriteVisit.target_eq_iff _ c r).2 ⟨hc, hr⟩
  · rintro ⟨v, hv, hbit, ht⟩
    obtain ⟨k, hk, hvr, hrow, hj⟩ := (mem_spriteVisits _ _ v).1 hv
    obtain ⟨hc, hr⟩ := (v.target_eq_iff c r).1 ht
    rw [hvr, Nat.zero_add] at hr
    exact ⟨k, v.c, hk, hj, by rwa [← hrow], hc, hr⟩

theorem drawSprite_eq_foldl (ox oy : Nat) (rows : List Byte) (d : Display) :
    Display.drawSprite ox oy rows d = (spriteVisits 0 rows).foldl (SpriteVisit.apply ox oy) (d, false) :=
  Display.drawRows_eq_foldl ox oy 0 rows (d, false)

theorem xoredWith_drawSprite (h : rows.length ≤ 32) :
    XoredWith (SpriteCovers ox oy rows) d (Display.drawSprite ox oy rows d).1 := by
  intro c r
  obtain ⟨hcells, -⟩ := foldl_spriteVisits ox oy _ (d, false) (pairwise_target_spriteVisits 0 h)
  have hmask : ((spriteVisits 0 rows).any fun v => v.isOn && decide (v.target ox oy = (c, r))) = true ↔
      SpriteCovers ox oy rows c r := by
    simp only [spriteCovers_iff_visit, List.any_eq_true, Bool.and_eq_true, decide_eq_true_eq]
  rw [drawSprite_eq_foldl, hcells c r]
  constructor
  · intro hc
    rw [hmask.2 hc, Bool.xor_true]
  · intro hc
    rw [Bool.eq_false_iff.2 (mt hmask.1 hc), Bool.xor_false]

theorem drawSprite_collision_iff (h : rows.length ≤ 32) :
    (Display.drawSprite ox oy rows d).2 = true ↔ Collides (SpriteCovers ox oy rows) d := by
  obtain ⟨-, hflag⟩ := foldl_spriteVisits ox oy _ (d, false) (pairwise_target_spriteVisits 0 h)
  rw [drawSprite_eq_foldl, hflag, Bool.false_or, List.any_eq_true]
  constructor
  · rintro ⟨v, hv, hon⟩
    obtain ⟨hbit, hcell⟩ := Bool.and_eq_true_iff.1 hon
    exact ⟨_, _, (spriteCovers_iff_visit _ _).2 ⟨v, hv, hbit, rfl⟩, hcell⟩
  · rintro ⟨c, r, hc, hcell⟩
    obtain ⟨v, hv, hbit, ht⟩ := (spriteCovers_iff_visit c r).1 hc
    exact ⟨v, hv, Bool.and_eq_true_iff.2 ⟨hbit, by rw [ht]; exact hcell⟩⟩

end Visits

/-! ## One XOR, and the same XOR again -/

section Xor
variable {covers : Fin 64 → Fin 32 → Prop} {d e f : Display}

theorem XoredWith.twice_eq (h : XoredWith covers d e) (h' : XoredWith covers e f) : f = d := by
  refine Display.ext_get fun c r => ?_
  by_cases hc : covers c r
  · rw [(h' c r).1 hc, (h c r).1 hc, Bool.not_not]
  · rw [(h' c r).2 hc, (h c r).2 hc]

/-- After an XOR, the mask meets the cells that the XOR turned on, and no other cell that is on. -/
theorem XoredWith.collides_iff (h : XoredWith covers d e) :
    Collides covers e ↔ ∃ c r, d.get c r = false ∧ e.get c r = true := by
  refine exists_congr fun c => exists_congr fun r => and_congr_left fun he => ?_
  by_cases hc : covers c r
  · have hoff : (!d.get c r) = true := ((h c r).1 hc).symm.trans he
    exact iff_of_true hc (by simpa using hoff)
  · have hon : d.get c r = true := ((h c r).2 hc).symm.trans he
    exact iff_of_false hc (by simp [hon])

end Xor

/-! ## Frames of the instructions that write the display -/

section Frames
variable {s t : State}

theorem keepsAllBut_withDisp (s : State) (d : Display) : KeepsAllBut [.disp] s { s with disp := d } := by
  intro p hp
  cases p with
  | disp => exact absurd (List.mem_singleton.2 rfl) hp
  | regs | mem => exact fun _ => rfl
  | _ => rfl

theorem keepsAllBut_fetched_drawAt (s : State) (ox oy : Nat) (rows : List Byte) :
    KeepsAllBut [.regs, .disp, .pc] s (s.fetched.drawAt ox oy rows) :=
  (keepsAllBut_withRegs s _).append ((keepsAllBut_withDisp _ _).append (keepsAllBut_withPc _ _))

/-- A piece that is unchanged after all need not be listed. -/
theorem KeepsAllBut.erase {changed : List Piece} {p : Piece} (h : KeepsAllBut changed s t) (hp : Unchanged s t p) :
    KeepsAllBut (changed.erase p) s t := by
  intro q hq
  by_cases hqp : q = p
  · exact hqp ▸ hp
  · exact h q (mt (List.mem_erase_of_ne hqp).2 hq)

end Frames

/-! ## DRW -/

section Draw
variable {s : State} {x y n : Nibble} {rows : List Byte}

/-- Bytes that memory holds are the bytes read there. -/
theorem HoldsBytes.readBytes_eq {a : Nat} (h : HoldsBytes s a rows) : s.readBytes a rows.length = rows :=
  List.ext_getElem (s.readBytes_length a _) fun k hk hk' => (s.readBytes_getElem a _ k hk).trans (h k hk')

theorem holdsBytes_readBytes (s : State) (a k : Nat) : HoldsBytes s a (s.readBytes a k) :=
  fun j hj => (s.readBytes_getElem a k j hj).symm

theorem exec_drw_of_inBounds (h : n.val = 0 ∨ s.i.toNat + n.val - 1 ≤ 0xFFF) :
    exec (.drw x y n) s =
      .next (s.fetched.drawAt (originX (s.getV x)) (originY (s.getV y)) (s.readBytes s.i.toNat n.val)) :=
  if_pos ((spriteInBounds_iff s.i n).2 h)

theorem exec_drw_of_outOfBounds (hn : n.val ≥ 1) (h : s.i.toNat + n.val - 1 > 0xFFF) :
    exec (.drw x y n) s = .next (s.faulted .boundsData) :=
  if_neg (mt (spriteInBounds_iff s.i n).1 (by omega))

theorem collisionFlag_of_false {c : Bool} (h : ¬c = true) : collisionFlag c = 0 := if_neg h

theorem collisionFlag_of_true {c : Bool} (h : c = true) : collisionFlag c = 1 := if_pos h

end Draw

/-! ## The statements -/

/-- Settles O33: the cleared buffer has every cell 0, and the fetch increment is the only other write. -/
theorem clearTurnsEveryCellOff : Obligations.ClearTurnsEveryCellOff := by
  obtain ⟨⟨hrow, -⟩, -⟩ := opcodeMapIsReadByMaskAndMatch
  exact ⟨hrow, fun s => ⟨_, rfl, Display.get_clear, rfl, (keepsAllBut_withDisp s _).append (keepsAllBut_withPc _ _)⟩⟩

/-- Settles O34: a draw is its visits, no two of which land on one cell, and an XOR with one mask undoes itself. -/
theorem drawSpriteIsOneXorWithTheMask : Obligations.DrawSpriteIsOneXorWithTheMask := by
  intro ox oy rows d _ _ hlen
  have h32 : rows.length ≤ 32 := Nat.le_trans hlen (by decide)
  refine ⟨fun k j k' j' hk hk' hj hj' hcol hline => ⟨by omega, by omega⟩, xoredWith_drawSprite h32,
    drawSprite_collision_iff h32, ?_⟩
  exact (xoredWith_drawSprite h32).twice_eq (xoredWith_drawSprite h32)

/-- Settles O35: the draw's origin is on the old registers, and VF is the draw's collision flag. -/
theorem drawXorsTheSpriteAndFlagsCollision : Obligations.DrawXorsTheSpriteAndFlagsCollision := by
  obtain ⟨-, ⟨-, -, -, -, -, -, -, -, hrow⟩, -⟩ := opcodeMapIsReadByMaskAndMatch
  refine ⟨hrow, fun x y n s rows h hlen hrows => ?_, fun x y n s hn h => ⟨_, exec_drw_of_outOfBounds hn h, rfl⟩⟩
  have h32 : rows.length ≤ 32 := by omega
  have hread : s.readBytes s.i.toNat n.val = rows := by rw [← hlen]; exact hrows.readBytes_eq
  refine ⟨_, exec_drw_of_inBounds h, ?_⟩
  rw [hread]
  refine ⟨xoredWith_drawSprite h32, fun hc => ?_, fun hc => ?_, fun j hj => ?_, rfl, keepsAllBut_fetched_drawAt s _ _ rows⟩
  · rw [State.getV_drawAt, if_pos rfl]
    exact collisionFlag_of_true ((drawSprite_collision_iff h32).2 hc)
  · rw [State.getV_drawAt, if_pos rfl]
    exact collisionFlag_of_false (mt (drawSprite_collision_iff h32).1 hc)
  · rw [State.getV_drawAt, if_neg hj, State.getV_fetched]

/-- Settles O36: the second draw has the origin, the range and the bytes of the first, so it is the same XOR again. -/
theorem drawingTwiceRestoresTheDisplay : Obligations.DrawingTwiceRestoresTheDisplay := by
  intro x y n s hx hy h
  obtain ⟨-, hdraw, -⟩ := drawXorsTheSpriteAndFlagsCollision
  have hrows := holdsBytes_readBytes s s.i.toNat n.val
  have hlen := s.readBytes_length s.i.toNat n.val
  obtain ⟨t, ht, hxor, -, -, hregs, -, hframe⟩ := hdraw x y n s _ h hlen hrows
  have hi : t.i = s.i := hframe .index (by decide)
  have hmem : ∀ a, t.readByte a = s.readByte a := hframe .mem (by decide)
  obtain ⟨u, hu, hxor', hon, hoff, hregs', -, hframe'⟩ := hdraw x y n t _ (by rwa [hi]) hlen
    (fun k hk => by rw [hi, hmem]; exact hrows k hk)
  rw [hregs x hx, hregs y hy] at hxor' hon hoff
  have hdisp : u.disp = s.disp := hxor.twice_eq hxor'
  refine ⟨t, u, ht, hu, hdisp, ?_, fun j hj => (hregs' j hj).trans (hregs j hj), (hframe.trans hframe').erase (p := .disp) hdisp⟩
  rw [← hxor.collides_iff]
  refine ⟨fun hflag => ?_, hon⟩
  by_contra hc
  rw [hoff hc] at hflag
  exact absurd hflag (by decide)

end Sys2Proof.Machine
end

section
/-! PROOFS. The family of 44_input_timers.md: the key skips (R180, R181, R185) and the moves to and from the timers (R182-R184). -/

namespace Sys2Proof.Machine

/-! ## Key skips -/

section KeySkips
variable {s : State} {x : Nibble}

theorem State.keyAt_of_eq {b : Byte} {k : Nibble} (h : b.toNat = k.val) : s.keyAt b = some s.key[k] := by
  unfold State.keyAt
  rw [h]
  exact Vector.getElem?_eq_getElem k.isLt

theorem exec_skp_of_key {k : Nibble} (h : (s.getV x).toNat = k.val) :
    exec (.skp x) s = .next (s.fetched.skipIf s.key[k]) := by
  show execSkp x s = _
  rw [execSkp, State.keyAt_of_eq h]

theorem exec_sknp_of_key {k : Nibble} (h : (s.getV x).toNat = k.val) :
    exec (.sknp x) s = .next (s.fetched.skipIf (!s.key[k])) := by
  show execSknp x s = _
  rw [execSknp, State.keyAt_of_eq h]

theorem exec_skp_of_noKey (h : (s.getV x).toNat > 0xF) : exec (.skp x) s = .next (s.faulted .keyIndex) := by
  show execSkp x s = _
  rw [execSkp, (State.keyAt_eq_none s _).2 h]
  rfl

theorem exec_sknp_of_noKey (h : (s.getV x).toNat > 0xF) : exec (.sknp x) s = .next (s.faulted .keyIndex) := by
  show execSknp x s = _
  rw [execSknp, (State.keyAt_eq_none s _).2 h]
  rfl

end KeySkips

/-! ## Frames of the instructions that write a timer -/

section Frames
variable (s : State) (b : Byte)

theorem keepsAllBut_withDt : KeepsAllBut [.dt] s { s with dt := b } := by
  intro p hp
  cases p with
  | dt => exact absurd (List.mem_singleton.2 rfl) hp
  | regs | mem => exact fun _ => rfl
  | _ => rfl

theorem keepsAllBut_withSt : KeepsAllBut [.st] s { s with st := b } := by
  intro p hp
  cases p with
  | st => exact absurd (List.mem_singleton.2 rfl) hp
  | regs | mem => exact fun _ => rfl
  | _ => rfl

theorem keepsAllBut_fetched_setDt : KeepsAllBut [.dt, .pc] s (s.fetched.setDt b) :=
  (keepsAllBut_withDt s b).append (keepsAllBut_withPc _ _)

theorem keepsAllBut_fetched_setSt : KeepsAllBut [.st, .pc] s (s.fetched.setSt b) :=
  (keepsAllBut_withSt s b).append (keepsAllBut_withPc _ _)

end Frames

/-! ## The statements -/

/-- Settles O37: SKP skips on the level of the key that V[x] names and SKNP on its negation; above 0xF, V[x] names no key. -/
theorem keySkipsFollowTheKeyLevel : Obligations.KeySkipsFollowTheKeyLevel := by
  obtain ⟨-, -, ⟨hskp, hsknp, -⟩, -⟩ := opcodeMapIsReadByMaskAndMatch
  refine ⟨hskp, hsknp, fun x s k h => ⟨?_, ?_⟩, fun x s h => ⟨?_, ?_⟩⟩
  · exact ⟨_, exec_skp_of_key h, skipsWhen_skipIf Iff.rfl⟩
  · exact ⟨_, exec_sknp_of_key h, skipsWhen_skipIf (Bool.not_eq_true' _).to_iff⟩
  · exact ⟨_, exec_skp_of_noKey h, rfl⟩
  · exact ⟨_, exec_sknp_of_noKey h, rfl⟩

/-- Settles O38: each writes one byte after the fetch increment, which changes neither the registers nor the timers. -/
theorem timerAccessMovesOneByte : Obligations.TimerAccessMovesOneByte := by
  obtain ⟨-, -, ⟨-, -, hldVxDt, hldDtVx, hldStVx, -⟩, -⟩ := opcodeMapIsReadByMaskAndMatch
  refine ⟨hldVxDt, hldDtVx, hldStVx, fun x s => ⟨?_, ?_, ?_⟩⟩
  · exact ⟨_, rfl, writesRegister_fetched_setV s x s.dt⟩
  · exact ⟨_, rfl, rfl, rfl, keepsAllBut_fetched_setDt s _⟩
  · exact ⟨_, rfl, rfl, rfl, keepsAllBut_fetched_setSt s _⟩

end Sys2Proof.Machine
end

section
/-! PROOFS. The family of 45_unassigned.md: the no-op of every word that matches no row (R200). -/

namespace Sys2Proof.Machine

/-- Settles O39: the no-op is the fetch increment alone, which takes a PC of 0xFFE past the last fetchable address. -/
theorem unassignedWordsOnlyAdvancePc : Obligations.UnassignedWordsOnlyAdvancePc := by
  refine ⟨by decide, fun w s => ⟨(isUnassigned_iff_decodeWord w).1, ?_⟩⟩
  refine ⟨_, exec_noop w s, rfl, keepsAllBut_withPc s _, fun hv hpc => ?_⟩
  have hpc' : s.pc + 2 = 0x1000 := by rw [hpc]; rfl
  have hhigh : 0xFFE < (s.pc + 2).toNat := by rw [hpc']; decide
  exact ⟨hpc', step_boundsFetch hv hhigh⟩

end Sys2Proof.Machine
end

section
/-! PROOFS. The family of 60_exceptions.md: when a step raises a fault and what it then commits (R212-R215), what no instruction
reaches (R218), the timers (R220), the scheduler (R232-R236), and the ports for keys and for reading (R241, R242, R246). -/

namespace Sys2Proof.Machine

/-! ## Frames of the control state, the keys and the timers -/

section Frames
variable {changed more : List Piece} {s t : State}

/-- A longer list says less. -/
theorem KeepsAllBut.mono (h : KeepsAllBut changed s t) (hsub : ∀ p ∈ changed, p ∈ more) : KeepsAllBut more s t :=
  fun p hp => h p (mt (hsub p) hp)

/-- The pieces that an instruction may write when it raises no fault (60_exceptions.md R218). -/
def committedPieces : List Piece := [.regs, .index, .pc, .stack, .dt, .st, .mem, .disp, .draws]

/-- A state that differs from `s` in fields of `committedPieces` alone. -/
theorem keepsAllBut_committedPieces
    (h : t = { s with v := t.v, i := t.i, pc := t.pc, stack := t.stack, dt := t.dt, st := t.st, mem := t.mem,
                      disp := t.disp, draws := t.draws }) : KeepsAllBut committedPieces s t := by
  rw [h]
  exact .of_pieces (by simp [committedPieces, Unchanged])

variable (s)

theorem keepsAllBut_withKey (keys : Vector Bool 16) : KeepsAllBut [.key] s { s with key := keys } :=
  .of_pieces (by simp [Unchanged, State.getV, State.readByte])

theorem keepsAllBut_withPaused (b : Bool) : KeepsAllBut [.paused] s { s with paused := b } :=
  .of_pieces (by simp [Unchanged, State.getV, State.readByte])

theorem keepsAllBut_withRunning (b : Bool) : KeepsAllBut [.running] s { s with running := b } :=
  .of_pieces (by simp [Unchanged, State.getV, State.readByte])

theorem keepsAllBut_withIps (v : Nat) : KeepsAllBut [.ips] s { s with ips := v } :=
  .of_pieces (by simp [Unchanged, State.getV, State.readByte])

theorem keepsAllBut_withBaseline (now : Time) : KeepsAllBut [.baseline] s { s with baseline := now } :=
  .of_pieces (by simp [Unchanged, State.getV, State.readByte])

theorem keepsAllBut_withFault (f : FaultReg) : KeepsAllBut [.fault] s { s with fault := f } :=
  .of_pieces (by simp [Unchanged, State.getV, State.readByte])

theorem keepsAllBut_timerDecrement : KeepsAllBut [.dt, .st] s s.timerDecrement :=
  (keepsAllBut_withDt s (countDown s.dt)).append (keepsAllBut_withSt _ (countDown s.st))

theorem keepsAllBut_setKeys (ws : List KeyWrite) : KeepsAllBut [.key] s (s.setKeys ws) := by
  rw [State.setKeys_eq]
  exact keepsAllBut_withKey s _

end Frames

/-! ## The cause that is due -/

/-- The cause that instruction `i` raises in `s`, if any: the condition column of R212 as a function, so that at most one cause is
due. -/
def instrCause (s : State) : Instr → Option FaultCause
  | .ret => if s.stack.length = 0 then some .stackUnderflow else none
  | .call _ => if s.params.stackDepth = some s.stack.length then some .stackOverflow else none
  | .drw _ _ n => if 1 ≤ n.val ∧ s.i.toNat + n.val - 1 > 0xFFF then some .boundsData else none
  | .ldB _ => if s.i.toNat + 2 > 0xFFF then some .boundsData else none
  | .storeRegs x | .loadRegs x => if s.i.toNat + x.val > 0xFFF then some .boundsData else none
  | .skp x | .sknp x => if (s.getV x).toNat > 0xF then some .keyIndex else none
  | _ => none

theorem instrFaults_iff (s : State) (i : Instr) (c : FaultCause) : InstrFaults s i c ↔ instrCause s i = some c := by
  -- Each row of the table against each instruction; the excluded lemma would rewrite the condition on one side alone.
  cases c with
  | boundsFetch | boundsData | stackUnderflow | stackOverflow | keyIndex =>
    cases i <;> simp [InstrFaults, instrCause, -ite_eq_left_iff]

/-- The cause that the step from `s` raises: the fetch is checked first (R214). -/
def State.dueCause (s : State) : Option FaultCause :=
  if s.pc.toNat ≤ 0xFFE then instrCause s (decodeWord s.fetchWord) else some .boundsFetch

theorem faultDue_iff (s : State) (c : FaultCause) : FaultDue s c ↔ s.dueCause = some c := by
  unfold FaultDue State.dueCause
  by_cases hpc : s.pc.toNat ≤ 0xFFE
  · simp [hpc, Nat.not_lt.2 hpc, instrFaults_iff]
  · simp [hpc, Nat.lt_of_not_le hpc, eq_comm]

/-! ## What an instruction answers -/

/-- `o` is the answer of a step from `s` in which the cause `due` is due: the fault's entry (R213), or, where none is due, a state
that leaves the fault register, the control state and the keys alone. -/
def RaisesOrCommits (s : State) (o : StepOutcome) : Option FaultCause → Prop
  | some c => ∃ t, o = .next t ∧ FaultEntered (causeCode c) s t
  | none => ∃ t, o = .next t ∧ KeepsAllBut committedPieces s t

section Exec
variable {s : State}

theorem RaisesOrCommits.exists_next {o : StepOutcome} {due : Option FaultCause} (h : RaisesOrCommits s o due) :
    ∃ t, o = .next t ∧ KeepsAllBut (.fault :: committedPieces) s t ∧
      (t.fault = s.fault ∨ ∃ c, FaultEntered (causeCode c) s t) := by
  cases due with
  | some c =>
    obtain ⟨t, e, rfl⟩ := h
    exact ⟨_, e, (keepsAllBut_withFault s _).mono (by decide), .inr ⟨c, rfl⟩⟩
  | none =>
    obtain ⟨t, e, hframe⟩ := h
    exact ⟨t, e, hframe.mono fun _ => List.mem_cons_of_mem _, .inl (hframe .fault (by decide))⟩

theorem RaisesOrCommits.of_ite {o : StepOutcome} {c : FaultCause} {p : Prop} [Decidable p]
    (hraise : p → RaisesOrCommits s o (some c)) (hcommit : ¬p → RaisesOrCommits s o none) :
    RaisesOrCommits s o (if p then some c else none) := by
  split
  · next h => exact hraise h
  · next h => exact hcommit h

theorem keepsAllBut_fetched_skipIf (s : State) (b : Bool) : KeepsAllBut committedPieces s (s.fetched.skipIf b) := by
  rw [fetched_skipIf_eq]
  exact keepsAllBut_committedPieces rfl

theorem execRet_raisesOrCommits : RaisesOrCommits s (exec .ret s) (instrCause s .ret) := by
  refine .of_ite (fun h => ⟨_, exec_ret_of_empty (List.length_eq_zero_iff.1 h), rfl⟩) fun h => ?_
  obtain hnil | ⟨l, a, hl⟩ := List.eq_nil_or_concat s.stack
  · exact absurd (List.length_eq_zero_iff.2 hnil) h
  · exact ⟨_, exec_ret_of_entry (hl.trans List.concat_eq_append), keepsAllBut_committedPieces rfl⟩

theorem execCall_raisesOrCommits (nnn : Addr) : RaisesOrCommits s (exec (.call nnn) s) (instrCause s (.call nnn)) :=
  .of_ite (fun h => ⟨_, exec_call_of_full nnn h, rfl⟩) fun h =>
    ⟨_, exec_call_of_room nnn h, keepsAllBut_committedPieces rfl⟩

theorem execDrw_raisesOrCommits (x y n : Nibble) : RaisesOrCommits s (exec (.drw x y n) s) (instrCause s (.drw x y n)) :=
  .of_ite (fun h => ⟨_, exec_drw_of_outOfBounds h.1 h.2, rfl⟩) fun h =>
    ⟨_, exec_drw_of_inBounds (by omega), keepsAllBut_committedPieces rfl⟩

theorem execSkp_raisesOrCommits (x : Nibble) : RaisesOrCommits s (exec (.skp x) s) (instrCause s (.skp x)) :=
  .of_ite (fun h => ⟨_, exec_skp_of_noKey h, rfl⟩) fun h =>
    ⟨_, exec_skp_of_key (k := ⟨_, Nat.lt_succ_of_le (Nat.not_lt.1 h)⟩) rfl, keepsAllBut_fetched_skipIf s _⟩

theorem execSknp_raisesOrCommits (x : Nibble) : RaisesOrCommits s (exec (.sknp x) s) (instrCause s (.sknp x)) :=
  .of_ite (fun h => ⟨_, exec_sknp_of_noKey h, rfl⟩) fun h =>
    ⟨_, exec_sknp_of_key (k := ⟨_, Nat.lt_succ_of_le (Nat.not_lt.1 h)⟩) rfl, keepsAllBut_fetched_skipIf s _⟩

theorem execLdB_raisesOrCommits (x : Nibble) : RaisesOrCommits s (exec (.ldB x) s) (instrCause s (.ldB x)) :=
  .of_ite (fun h => guarded_of_gt h) fun h => ⟨_, exec_ldB_of_le (Nat.not_lt.1 h), keepsAllBut_committedPieces rfl⟩

theorem execStoreRegs_raisesOrCommits (x : Nibble) :
    RaisesOrCommits s (exec (.storeRegs x) s) (instrCause s (.storeRegs x)) :=
  .of_ite (fun h => guarded_of_gt h) fun h => ⟨_, exec_storeRegs_of_le (Nat.not_lt.1 h), keepsAllBut_committedPieces rfl⟩

theorem execLoadRegs_raisesOrCommits (x : Nibble) :
    RaisesOrCommits s (exec (.loadRegs x) s) (instrCause s (.loadRegs x)) :=
  .of_ite (fun h => guarded_of_gt h) fun h => ⟨_, exec_loadRegs_of_le (Nat.not_lt.1 h), keepsAllBut_committedPieces rfl⟩

/-- Everything an instruction can do to the fault register, the control state and the keys. -/
theorem exec_raisesOrCommits (i : Instr) (s : State) : RaisesOrCommits s (exec i s) (instrCause s i) := by
  cases i with
  | ret => exact execRet_raisesOrCommits
  | call nnn => exact execCall_raisesOrCommits nnn
  | drw x y n => exact execDrw_raisesOrCommits x y n
  | skp x => exact execSkp_raisesOrCommits x
  | sknp x => exact execSknp_raisesOrCommits x
  | ldB x => exact execLdB_raisesOrCommits x
  | storeRegs x => exact execStoreRegs_raisesOrCommits x
  | loadRegs x => exact execLoadRegs_raisesOrCommits x
  | seImm | sneImm | seReg => exact ⟨_, rfl, keepsAllBut_fetched_skipIf s _⟩
  | _ => exact ⟨_, rfl, keepsAllBut_committedPieces rfl⟩

end Exec

/-! ## What a step answers -/

section Step
variable {s t : State} {c : FaultCause}

theorem step_raisesOrCommits (hv : s.fault.valid = false) : RaisesOrCommits s (step s) s.dueCause := by
  unfold State.dueCause
  split
  · next hpc =>
    rw [step_eq_exec hv hpc]
    exact exec_raisesOrCommits _ s
  · next hpc => exact step_boundsFetch hv (Nat.lt_of_not_le hpc)

theorem step_of_faultDue (hv : s.fault.valid = false) (h : FaultDue s c) :
    ∃ t, step s = .next t ∧ FaultEntered (causeCode c) s t := by
  have hstep := step_raisesOrCommits hv
  rwa [(faultDue_iff s c).1 h] at hstep

theorem step_of_noFaultDue (hv : s.fault.valid = false) (h : ∀ c, ¬FaultDue s c) :
    ∃ t, step s = .next t ∧ KeepsAllBut committedPieces s t := by
  have hnone : s.dueCause = none := Option.eq_none_iff_forall_ne_some.2 fun c hc => h c ((faultDue_iff s c).2 hc)
  have hstep := step_raisesOrCommits hv
  rwa [hnone] at hstep

/-- A fault's entry makes the fault register valid, with the cause that was due. -/
theorem faultDue_of_valid (hv : s.fault.valid = false) (e : step s = .next t) (ht : t.fault.valid = true) :
    ∃ c, FaultDue s c ∧ FaultEntered (causeCode c) s t := by
  by_cases h : ∃ c, FaultDue s c
  · obtain ⟨c, hc⟩ := h
    obtain ⟨u, eu, hu⟩ := step_of_faultDue hv hc
    cases e.symm.trans eu
    exact ⟨c, hc, hu⟩
  · obtain ⟨u, eu, hu⟩ := step_of_noFaultDue hv (not_exists.1 h)
    cases e.symm.trans eu
    have hfault : t.fault = s.fault := hu .fault (by decide)
    rw [hfault, hv] at ht
    contradiction

theorem step_of_valid (hv : s.fault.valid = true) : step s = .next s := if_pos hv

/-- Every step answers a state, with the same control state, keys and parameters. -/
theorem step_keepsControl (s : State) : ∃ t, step s = .next t ∧ KeepsAllBut (.fault :: committedPieces) s t := by
  cases hv : s.fault.valid with
  | true => exact ⟨s, step_of_valid hv, .refl _ s⟩
  | false =>
    obtain ⟨t, e, hframe, -⟩ := (step_raisesOrCommits hv).exists_next
    exact ⟨t, e, hframe⟩

theorem hostCall_step (e : step s = .next t) : hostCall .step s = .next (t, stepResult t) :=
  (bindOutcome_eq_next _ _ _).2 ⟨t, e, rfl⟩

end Step

/-- Settles O12: the cause that is due is the value of one function. -/
theorem aStepRaisesAtMostOneFault : Obligations.AStepRaisesAtMostOneFault :=
  ⟨fun s c d hc hd => Option.some.inj (((faultDue_iff s c).1 hc).symm.trans ((faultDue_iff s d).1 hd)),
    fun _ hv hpc => step_boundsFetch hv hpc⟩

/-- Settles O11: only a cause that is due makes the fault register valid. -/
theorem aFaultingStepCommitsNothing : Obligations.AFaultingStepCommitsNothing := by
  intro s t hv e ht
  obtain ⟨c, -, hc⟩ := faultDue_of_valid hv e ht
  exact ⟨c, hc⟩

/-- Settles O10: a cause that is due is entered, and the code in the register tells which cause was due. -/
theorem faultsAreRaisedExactlyWhenDue : Obligations.FaultsAreRaisedExactlyWhenDue := by
  refine ⟨by decide, fun s c hv => ⟨⟨step_of_faultDue hv, ?_⟩, fun hc => ?_, fun hnone => ?_⟩⟩
  · rintro ⟨t, e, rfl⟩
    obtain ⟨d, hd, hentered⟩ := faultDue_of_valid hv e rfl
    have hcode : causeCode c = causeCode d := congrArg (fun t => t.fault.cause) hentered
    exact causeCode_injective hcode ▸ hd
  · obtain ⟨t, e, rfl⟩ := step_of_faultDue hv hc
    exact ⟨_, hostCall_step e, rfl⟩
  · obtain ⟨t, e, ht⟩ := step_of_noFaultDue hv hnone
    have hfault : t.fault = s.fault := ht .fault (by decide)
    have hok : stepResult t = .ok := if_neg (by rw [hfault, hv]; decide)
    exact ⟨t, e, hok ▸ hostCall_step e, hfault⟩

/-- Settles O56: an instruction enters a fault, which writes the fault register alone, or commits, which leaves it. -/
theorem noInstructionReachesControlState : Obligations.NoInstructionReachesControlState := by
  intro i s t e
  obtain ⟨u, eu, hframe, hfault⟩ := (exec_raisesOrCommits i s).exists_next
  cases e.symm.trans eu
  exact ⟨hframe.mono (by decide), hfault⟩

/-! ## Key writes -/

section Keys
variable {s t : State} {ws : List KeyWrite}

/-- The levels that `setKeys` leaves are the levels last written (R241). -/
theorem keysWritten_of_key (h : t.key = (s.setKeys ws).key) : KeysWritten ws s t := by
  constructor
  · intro j hj
    rw [h]
    exact s.key_setKeys_of_not_named ws j hj
  · rintro earlier w later rfl hlater
    rw [h, State.setKeys_append]
    calc (((s.setKeys earlier).setKey w).setKeys later).key[w.k]
      _ = ((s.setKeys earlier).setKey w).key[w.k] := State.key_setKeys_of_not_named _ later _ hlater
      _ = w.b := by rw [State.key_setKey, if_pos rfl]

/-- The lists of a tick in one: the one after the next step, and the others. -/
theorem headD_append_tail_flatten (wss : List (List KeyWrite)) : wss.headD [] ++ wss.tail.flatten = wss.flatten := by
  cases wss <;> rfl

/-- A step between key writes makes no difference to the keys: none of its instructions reaches them. -/
theorem runSteps_key (n : Nat) (wss : List (List KeyWrite)) (s : State) :
    ∃ u, runSteps n wss s = .next u ∧ u.key = (s.setKeys wss.flatten).key := by
  induction n generalizing wss s with
  | zero => exact ⟨_, rfl, rfl⟩
  | succ n ih =>
    obtain ⟨t, e, ht⟩ := step_keepsControl s
    obtain ⟨u, eu, hu⟩ := ih wss.tail (t.setKeys (wss.headD []))
    have hkey : t.key = s.key := ht .key (by decide)
    refine ⟨u, by rw [runSteps, e, bindOutcome_next, eu], ?_⟩
    rw [hu, ← State.setKeys_append, headD_append_tail_flatten, State.key_setKeys_congr hkey]

/-- While the fault is valid, the steps of a tick leave only its key writes (R215). -/
theorem runSteps_of_valid (n : Nat) (wss : List (List KeyWrite)) (hv : s.fault.valid = true) :
    runSteps n wss s = .next (s.setKeys wss.flatten) := by
  induction n generalizing wss s with
  | zero => rfl
  | succ n ih =>
    rw [runSteps, step_of_valid hv, bindOutcome_next, ih _ (by rwa [State.setKeys_fault]), ← State.setKeys_append,
      headD_append_tail_flatten]

theorem runSteps_nil (n : Nat) (s : State) : runSteps n [] s = runFor n s := by
  induction n generalizing s with
  | zero => rfl
  | succ n ih => exact congrArg (bindOutcome (step s)) (funext ih)

end Keys

/-! ## Ticks -/

/-- What the timer branch of R233 makes of `u`. -/
def CountsTime (now elapsed : Time) (u t : State) : Prop :=
  (60 * elapsed ≥ 1000 → t.dt.toNat = u.dt.toNat - 1 ∧ t.st.toNat = u.st.toNat - 1 ∧ t.baseline = now ∧
    KeepsAllBut [.dt, .st, .baseline] u t) ∧
  (60 * elapsed < 1000 → t = u)

section Tick
variable {s u t : State} {now elapsed : Time} {writes : List (List KeyWrite)}

theorem countsTime_timerBranch (now elapsed : Time) (u : State) : CountsTime now elapsed u (timerBranch now elapsed u) := by
  constructor
  · intro h
    rw [timerBranch, if_pos h]
    exact ⟨countDown_toNat _, countDown_toNat _, rfl,
      (keepsAllBut_timerDecrement u).append (keepsAllBut_withBaseline _ now)⟩
  · intro h
    rw [timerBranch, if_neg (not_le.2 h)]

theorem CountsTime.frame (h : CountsTime now elapsed u t) : KeepsAllBut [.dt, .st, .baseline] u t := by
  obtain ⟨hge, hlt⟩ := h
  by_cases hperiod : 60 * elapsed ≥ 1000
  · obtain ⟨-, -, -, hframe⟩ := hge hperiod
    exact hframe
  · rw [hlt (not_le.1 hperiod)]
    exact .refl _ u

theorem tick_of_stopped (hrun : s.running = false) (hnow : s.baseline ≤ now) :
    tick now writes s = .next (s.setKeys writes.flatten) := by
  rw [tick, if_neg (not_lt.2 hnow), hrun]
  rfl

theorem tick_of_running (hrun : s.running = true) (hnow : s.baseline ≤ now)
    (hloop : tickLoop (now - s.baseline) writes s = .next u) :
    tick now writes s = .next (timerBranch now (now - s.baseline) u) := by
  rw [tick, if_neg (not_lt.2 hnow), if_pos hrun, hloop]
  rfl

theorem tickLoop_of_valid (hv : s.fault.valid = true) : tickLoop elapsed writes s = .next (s.setKeys writes.flatten) :=
  runSteps_of_valid _ _ hv

theorem tickLoop_of_paused (hp : s.paused = true) : tickLoop elapsed writes s = .next (s.setKeys writes.flatten) := by
  rw [tickLoop, if_pos hp]
  rfl

/-- A running tick whose steps leave only the key writes: faulted (R215) or paused (R234). -/
theorem tick_of_keyWritesOnly (hrun : s.running = true) (hnow : s.baseline ≤ now)
    (hloop : tickLoop (now - s.baseline) writes s = .next (s.setKeys writes.flatten)) :
    ∃ t, tick now writes s = .next t ∧ KeepsAllBut [.key, .dt, .st, .baseline] s t ∧ KeysWritten writes.flatten s t ∧
      (60 * (now - s.baseline) ≥ 1000 → t.dt.toNat = s.dt.toNat - 1 ∧ t.st.toNat = s.st.toNat - 1 ∧ t.baseline = now) ∧
      (60 * (now - s.baseline) < 1000 → t.dt = s.dt ∧ t.st = s.st ∧ t.baseline = s.baseline) := by
  have htime := countsTime_timerBranch now (now - s.baseline) (s.setKeys writes.flatten)
  refine ⟨_, tick_of_running hrun hnow hloop, (keepsAllBut_setKeys s _).append htime.frame,
    keysWritten_of_key (timerBranch_key _ _ _), fun h => ?_, fun h => ?_⟩
  · obtain ⟨hdt, hst, hbase, -⟩ := htime.1 h
    rw [State.setKeys_dt] at hdt
    rw [State.setKeys_st] at hst
    exact ⟨hdt, hst, hbase⟩
  · rw [htime.2 h]
    exact ⟨State.setKeys_dt s _, State.setKeys_st s _, State.setKeys_baseline s _⟩

theorem hostCall_tick (e : tick now writes s = .next t) : hostCall (.tick now writes) s = .next (t, .ok) :=
  (bindOutcome_eq_next _ _ _).2 ⟨t, e, rfl⟩

/-- `k` is the whole number of cycles of R232. -/
theorem tickLoop_eq_runSteps {k : Nat} (h1 : (k : Rat) ≤ s.ips * elapsed / 1000) (h2 : s.ips * elapsed / 1000 < (k : Rat) + 1) :
    tickLoop elapsed writes s = runSteps (if s.paused then 0 else max 1 k) writes s := by
  rw [tickLoop, tickSteps, cyclesToRun_eq h1 h2]

/-- A running tick: its steps with the key writes between them, and then the timer branch (R233). -/
theorem tick_eq_steps_then_timers (hrun : s.running = true) (hnow : s.baseline ≤ now) {k : Nat}
    (h1 : (k : Rat) ≤ s.ips * (now - s.baseline) / 1000) (h2 : s.ips * (now - s.baseline) / 1000 < (k : Rat) + 1)
    (writes : List (List KeyWrite)) :
    ∃ u t, runSteps (if s.paused then 0 else max 1 k) writes s = .next u ∧ tick now writes s = .next t ∧
      KeysWritten writes.flatten s t ∧ CountsTime now (now - s.baseline) u t := by
  obtain ⟨u, eu, hkey⟩ := runSteps_key (if s.paused then 0 else max 1 k) writes s
  exact ⟨u, _, eu, tick_of_running hrun hnow ((tickLoop_eq_runSteps h1 h2).trans eu),
    keysWritten_of_key ((timerBranch_key _ _ _).trans hkey), countsTime_timerBranch _ _ u⟩

end Tick

/-! ## The fault register under the ports other than `reset()` -/

section Sticky
variable {s : State}

theorem tick_keepsFault (now : Time) (writes : List (List KeyWrite)) (hv : s.fault.valid = true) :
    Answers (fun t => t.fault = s.fault) (tick now writes s) := by
  refine .ite (fun _ => .refused _) fun _ => .ite (fun _ => ?_) fun _ => .next (State.setKeys_fault s _)
  rw [tickLoop_of_valid hv]
  exact .next ((timerBranch_fault _ _ _).trans (State.setKeys_fault s _))

theorem start_keepsFault (now : Time) (s : State) : Answers (fun t => t.fault = s.fault) (start now s) :=
  .ite (fun _ => .refused _) fun _ => .next rfl

theorem loadProgram_keepsFault (bytes : List Byte) (s : State) : (loadProgram bytes s).1.fault = s.fault := by
  unfold loadProgram
  split <;> rfl

theorem hostCall_keepsFault {c : HostCall} (hc : c ≠ .reset) (hv : s.fault.valid = true) :
    Answers (fun p => p.1.fault = s.fault) (hostCall c s) := by
  cases c with
  | reset => exact absurd rfl hc
  | loadProgram bytes => exact .next (loadProgram_keepsFault bytes s)
  | start now => exact (start_keepsFault now s).bind fun _ ht => .next ht
  | tick now writes => exact (tick_keepsFault now writes hv).bind fun _ ht => .next ht
  | step => rw [hostCall_step (step_of_valid hv)]; exact .next rfl
  | stop | setPaused | setIps | setKey | readDisplay | inspect => exact .next rfl

end Sticky

/-! ## The statements about the scheduler and the ports -/

/-- Settles O13: a faulted step is no step, so a tick is its key writes and the timer branch. -/
theorem aFaultIsStickyUntilReset : Obligations.AFaultIsStickyUntilReset := by
  intro s hv
  have hstep : step s = .next s := step_of_valid hv
  have hanswer : stepResult s = .fault s.fault.cause := if_pos hv
  refine ⟨hstep, hanswer ▸ hostCall_step hstep, fun now writes hrun hnow => ?_, ⟨_, rfl, rfl⟩,
    fun c t r hc e => hostCall_keepsFault hc hv (t, r) e⟩
  obtain ⟨t, e, hframe, hkeys, hge, hlt⟩ := tick_of_keyWritesOnly hrun hnow (writes := writes) (tickLoop_of_valid hv)
  have hkept : t.running = s.running := hframe .running (by decide)
  have hrun' : t.running = true := hkept.trans hrun
  refine ⟨t, e, hframe, hkeys, fun h => ?_, fun h => ?_⟩
  · obtain ⟨hdt, hst, hbase⟩ := hge h
    exact ⟨hdt, hst, hbase, hrun'⟩
  · obtain ⟨hdt, hst, hbase⟩ := hlt h
    exact ⟨hdt, hst, hbase, hrun'⟩

/-- Settles O42: the steps of a tick do not reach the keys, and its timer branch does not reach them either. -/
theorem tickRunsItsStepsThenDecrementsOnce : Obligations.TickRunsItsStepsThenDecrementsOnce := by
  refine ⟨fun s ws => ⟨keysWritten_of_key rfl, keepsAllBut_setKeys s ws⟩, fun _ _ => rfl, fun n s ws wss => ?_, runSteps_nil,
    fun s now hnow => ⟨fun hrun => ⟨tick_of_stopped hrun hnow, fun writes => ?_⟩, fun hrun k h1 h2 writes => ?_⟩⟩
  · obtain ⟨t, e, -⟩ := step_keepsControl s
    exact ⟨t, e, by rw [runSteps, e]; rfl⟩
  · exact ⟨_, tick_of_stopped hrun hnow, keepsAllBut_setKeys s _, keysWritten_of_key rfl⟩
  · obtain ⟨u, t, eu, et, hkeys, htime⟩ := tick_eq_steps_then_timers hrun hnow h1 h2 writes
    exact ⟨u, t, eu, et, hostCall_tick et, hkeys, htime⟩

/-- Settles O43: with no step to run, a tick is its key writes and the timer branch. -/
theorem aPausedTickOnlyCountsTime : Obligations.APausedTickOnlyCountsTime :=
  ⟨fun s b => ⟨_, rfl, rfl, keepsAllBut_withPaused s b⟩,
    fun _ _ _ hrun hp hnow => tick_of_keyWritesOnly hrun hnow (tickLoop_of_paused hp)⟩

/-- Settles O41: each timer is one countdown. -/
theorem timersCountDownToZero : Obligations.TimersCountDownToZero :=
  fun s => ⟨countDown_toNat s.dt, countDown_toNat s.st, keepsAllBut_timerDecrement s⟩

/-- Settles O44: each port writes its own fields, and without key writes a stopped tick writes none. -/
theorem startAndStopSwitchTheScheduler : Obligations.StartAndStopSwitchTheScheduler := by
  refine ⟨fun s now hnow => ?_, fun s => ⟨_, rfl, rfl, keepsAllBut_withRunning s false⟩,
    fun s now hrun hnow => hostCall_tick (tick_of_stopped hrun hnow)⟩
  have hstart : start now s = .next { s with running := true, baseline := now } := if_neg (not_lt.2 hnow)
  exact ⟨_, (bindOutcome_eq_next _ _ _).2 ⟨_, hstart, rfl⟩, rfl, rfl,
    (keepsAllBut_withRunning s true).append (keepsAllBut_withBaseline _ now)⟩

/-- Settles O45: at rate 0 the number of cycles is 0, and a tick runs one step at least. -/
theorem anIpsOfZeroRunsOneStepATick : Obligations.AnIpsOfZeroRunsOneStepATick := by
  refine ⟨fun s v => ⟨_, rfl, rfl, keepsAllBut_withIps s v⟩, fun s now hips hrun hp hnow => ?_⟩
  have hcycles : (s.ips : Rat) * (now - s.baseline) / 1000 = 0 := by simp [hips]
  obtain ⟨u, t, eu, et, -, hge, hlt⟩ := tick_eq_steps_then_timers (k := 0) hrun hnow (by simp [hcycles]) (by simp [hcycles]) []
  obtain ⟨v, ev, -⟩ := step_keepsControl s
  rw [hp, runSteps_nil] at eu
  cases (runFor_succ 0 ev).symm.trans eu
  exact ⟨_, t, ev, et, hlt, hge⟩

/-- Settles O46: a write is read back from its own key alone. -/
theorem setKeyWritesOneKey : Obligations.SetKeyWritesOneKey := by
  refine fun s k b => ⟨_, rfl, ?_, fun j hj => ?_, keepsAllBut_withKey s _⟩
  · rw [State.key_setKey, if_pos rfl]
  · rw [State.key_setKey, if_neg hj]

/-- Settles O57: both ports answer from the state and leave it. -/
theorem readingPortsChangeNothing : Obligations.ReadingPortsChangeNothing := fun _ => ⟨rfl, rfl⟩

end Sys2Proof.Machine
end

section
/-! PROOFS. The family of 70_reset_and_hazards.md: the construction values (R260), `reset()` (R261), `loadProgram` (R262, R263), the boot
sequence (R264), a reset after a run (R265), and the self-jump that ends a run (R274). -/

namespace Sys2Proof.Machine

/-! ## What `reset()` leaves -/

/-- The pieces of state that `reset()` sets (70_reset_and_hazards.md R261). -/
def resetPieces : List Piece := [.mem, .regs, .index, .stack, .dt, .st, .pc, .paused, .disp, .fault]

section Reset
variable {s t : State}

@[simp] theorem State.getV_afterReset (s : State) (x : Nibble) : s.afterReset.getV x = 0 := by simp [State.getV]

theorem State.readByte_afterReset_font (s : State) (j : Nat) (h : j < 80) :
    s.afterReset.readByte (0x050 + j) = s.params.font[j] :=
  Memory.unlisted_font s.params.font j h

theorem State.readByte_afterReset_outside (s : State) {a : Nat} (h : a < 0x050 ∨ 0x0A0 ≤ a) : s.afterReset.readByte a = 0 :=
  Memory.unlisted_eq_zero s.params.font a h

theorem keepsAllBut_afterReset (s : State) : KeepsAllBut resetPieces s s.afterReset :=
  .of_pieces (by simp [resetPieces, Unchanged])

/-- `reset()` reads nothing of the pieces it sets: states that agree on the others, the draws apart, reset to the same state. -/
theorem afterReset_eq_of_frame (h : KeepsAllBut (.draws :: resetPieces) s t) :
    t.afterReset = { s.afterReset with draws := t.draws } := by
  have hparams : t.params = s.params := h .params (by decide)
  have hkey : t.key = s.key := h .key (by decide)
  have hrunning : t.running = s.running := h .running (by decide)
  have hips : t.ips = s.ips := h .ips (by decide)
  have hbaseline : t.baseline = s.baseline := h .baseline (by decide)
  simp only [State.afterReset, hparams, hkey, hrunning, hips, hbaseline]

/-- At construction `reset()` changes nothing (log entry 5). -/
theorem afterReset_reset : State.reset.afterReset = State.reset := rfl

end Reset

/-! ## What a load and a run of steps leave -/

section Frames
variable (s : State)

theorem keepsAllBut_withProgram (bytes : List Byte) : KeepsAllBut [.mem, .pc] s (s.withProgram bytes) :=
  .of_pieces (by simp [Unchanged, State.getV])

theorem keepsAllBut_loadProgram (bytes : List Byte) : KeepsAllBut [.mem, .pc] s (loadProgram bytes s).1 := by
  unfold loadProgram
  split
  · exact .refl _ s
  · exact keepsAllBut_withProgram s bytes

theorem runFor_keepsControl (n : Nat) : Answers (KeepsAllBut (.fault :: committedPieces) s) (runFor n s) := by
  induction n generalizing s with
  | zero => exact .next (.refl _ s)
  | succ n ih =>
    obtain ⟨u, e, hu⟩ := step_keepsControl s
    rw [runFor_succ n e]
    exact fun t et => hu.trans (ih u t et)

end Frames

/-! ## The answers of the load, of `start` and of the boot sequence -/

section Boot
variable {bytes : List Byte} {last now : Time}

theorem holdsBytes_withProgram (s : State) (bytes : List Byte) : HoldsBytes (s.withProgram bytes) 0x200 bytes :=
  fun k hk => s.readByte_withProgram_inside bytes k hk

theorem hostCall_loadProgram_of_le (s : State) (h : bytes.length ≤ 3584) :
    hostCall (.loadProgram bytes) s = .next (s.withProgram bytes, .ok) :=
  congrArg Host.Outcome.next (if_neg (Nat.not_lt.2 h))

theorem hostCall_loadProgram_of_gt (s : State) (h : bytes.length > 3584) :
    hostCall (.loadProgram bytes) s = .next (s, .rejected) :=
  congrArg Host.Outcome.next (if_pos h)

theorem hostCall_start_of_le {s : State} (h : s.baseline ≤ now) :
    hostCall (.start now) s = .next ({ s with running := true, baseline := now }, .ok) :=
  (bindOutcome_eq_next _ _ _).2 ⟨_, if_neg (not_lt.2 h), rfl⟩

/-- One call of a sequence, which passes no time below an earlier one (60_exceptions.md R244). -/
theorem runCalls_cons {c : HostCall} {calls : List HostCall} {s t : State} {r : PortResult} (htime : last ≤ c.time.getD last)
    (e : hostCall c s = .next (t, r)) : runCalls last (c :: calls) s = runCalls (c.time.getD last) calls t := by
  rw [runCalls, if_neg (not_lt.2 htime), e, bindOutcome_next]

/-- The boot sequence of an image that fits: the reset state with the image loaded, running from `now` (R264). -/
theorem runCalls_bootCalls {s : State} (hlen : bytes.length ≤ 3584) (hlast : last ≤ now) (hnow : s.baseline ≤ now) :
    runCalls last (bootCalls bytes now) s =
      .next { s.afterReset.withProgram bytes with running := true, baseline := now } := by
  calc runCalls last (bootCalls bytes now) s
    _ = runCalls last [.loadProgram bytes, .start now] s.afterReset := runCalls_cons (le_refl last) rfl
    _ = runCalls last [.start now] (s.afterReset.withProgram bytes) :=
      runCalls_cons (le_refl last) (hostCall_loadProgram_of_le s.afterReset hlen)
    _ = runCalls now [] { s.afterReset.withProgram bytes with running := true, baseline := now } :=
      runCalls_cons hlast (hostCall_start_of_le hnow)

end Boot

/-! ## The self-jump -/

theorem State.atSelfJump_iff (s : State) : s.atSelfJump = true ↔ s.pc.toNat ≤ 0xFFE ∧ s.fetchWord = 0x1000 ||| s.pc := by
  simp [State.atSelfJump, State.canFetch]

/-- An address inside the array is its own low 12 bits. -/
theorem zext16_setWidth {a : Word} (h : a.toNat ≤ 0xFFF) : zext16 (a.setWidth 12) = a := by
  apply BitVec.eq_of_toNat_eq
  rw [zext16_toNat, BitVec.toNat_setWidth]
  omega

/-- A word of format NNN is its opcode OR its address (30_encoding.md R82, R83). -/
theorem packNnn_eq_or (op : Nibble) (nnn : Addr) : packNnn op nnn = BitVec.ofNat 16 (op.val * 4096) ||| zext16 nnn := by
  have hop : (BitVec.ofNat 16 (op.val * 4096)).toNat = op.val <<< 12 := by
    rw [BitVec.toNat_ofNat, Nat.shiftLeft_eq]
    omega
  apply BitVec.eq_of_toNat_eq
  rw [packNnn_toNat, BitVec.toNat_or, zext16_toNat, hop, ← Nat.shiftLeft_add_eq_or_of_lt nnn.isLt, Nat.shiftLeft_eq]

theorem decodeWord_packNnn_jp (nnn : Addr) : decodeWord (packNnn 0x1 nnn) = .jp nnn := by simp [decodeWord]

/-! ## The statements -/

/-- Settles O49: the load and the steps leave the items that `reset()` leaves, and at construction those have their construction values. -/
theorem loadThenResetRestoresConstruction : Obligations.LoadThenResetRestoresConstruction := by
  intro bytes k t e
  have hload : KeepsAllBut (.draws :: resetPieces) State.reset (loadProgram bytes State.reset).1 :=
    (keepsAllBut_loadProgram _ bytes).mono (by decide)
  have hrun : KeepsAllBut (.draws :: resetPieces) (loadProgram bytes State.reset).1 t :=
    (runFor_keepsControl _ k t e).mono (by decide)
  have hreset := afterReset_eq_of_frame (hload.trans hrun)
  rw [afterReset_reset] at hreset
  exact congrArg (fun u => Host.Outcome.next (u, PortResult.ok)) hreset

/-- Settles O51: the load keeps what the reset left below 0x200, and `start` writes the scheduler's fields alone. -/
theorem bootGivesAFreshRun : Obligations.BootGivesAFreshRun := by
  intro s image last now hlen hlast hnow
  have hbelow (a : Nat) (h : a < 0x200) : (s.afterReset.withProgram image).readByte a = s.afterReset.readByte a :=
    s.afterReset.readByte_withProgram_below image a h
  refine ⟨_, runCalls_bootCalls hlen hlast hnow, holdsBytes_withProgram s.afterReset image, rfl, s.getV_afterReset, rfl, rfl, rfl, rfl,
    Display.get_clear, rfl, fun j hj => ?font, fun a ha => ?zero, rfl, rfl, rfl⟩
  case font => exact (hbelow _ (by omega)).trans (s.readByte_afterReset_font j hj)
  case zero =>
    obtain hlow | ⟨hfont, hbase⟩ | hhigh := ha
    · exact (hbelow a (by omega)).trans (s.readByte_afterReset_outside (.inl hlow))
    · exact (hbelow a hbase).trans (s.readByte_afterReset_outside (.inr hfont))
    · exact s.afterReset.readByte_withProgram_above image a hhigh

/-- Settles O52: while faulted a step does nothing, and else it jumps to the PC it starts from. -/
theorem aSelfJumpStaysWhereItIs : Obligations.ASelfJumpStaysWhereItIs := by
  intro s h
  obtain ⟨hpc, hword⟩ := s.atSelfJump_iff.1 h
  cases hv : s.fault.valid with
  | true => exact step_of_valid hv
  | false =>
    have htarget : zext16 (s.pc.setWidth 12) = s.pc := zext16_setWidth (by omega)
    have hjp : decodeWord s.fetchWord = .jp (s.pc.setWidth 12) := by
      rw [hword, ← decodeWord_packNnn_jp, packNnn_eq_or, htarget]
      rfl
    rw [step_eq_exec hv hpc, hjp, exec_jp, htarget]

/-- Settles O47: what `reset()` leaves does not read what it sets. -/
theorem resetPortClearsTheMachine : Obligations.ResetPortClearsTheMachine := fun s =>
  ⟨_, rfl, s.readByte_afterReset_font, fun _ h => s.readByte_afterReset_outside h, s.getV_afterReset, rfl, rfl, rfl, rfl, rfl, rfl,
    Display.get_clear, rfl, keepsAllBut_afterReset s⟩

/-- Settles O48: the image is written over memory cleared from 0x200 up, or the state is left as it is. -/
theorem loadProgramCopiesOrRejects : Obligations.LoadProgramCopiesOrRejects :=
  ⟨fun s bytes hlen => ⟨_, hostCall_loadProgram_of_le s hlen, holdsBytes_withProgram s bytes,
      s.readByte_withProgram_above bytes, s.readByte_withProgram_below bytes, rfl, keepsAllBut_withProgram s bytes⟩,
    fun s _ hlen => hostCall_loadProgram_of_gt s hlen⟩

/-- Settles O50: the construction state is what `reset()` leaves of it. -/
theorem constructionValuesHoldAtReset : Obligations.ConstructionValuesHoldAtReset := by
  have hkeys (k : Nibble) : State.reset.key[k] = false := by simp [State.reset]
  rw [Obligations.ConstructionValuesHoldAtReset, ← afterReset_reset]
  exact ⟨State.reset.getV_afterReset, rfl, rfl, rfl, rfl, rfl, fun _ h => State.reset.readByte_afterReset_outside h,
    State.reset.readByte_afterReset_font, Display.get_clear, hkeys, rfl, rfl, rfl, rfl, rfl⟩

end Sys2Proof.Machine
end

section
/-! PROOFS. The encoder against the decoder (30_encoding.md R84-R92), the word that `withFetchWord` places (log entry 6), the totality of
the step (60_exceptions.md R213, R215), and the random byte (41_alu.md R128). -/

namespace Sys2Proof.Machine

/-! ## Decoding an encoded instruction -/

/-- The decoder gives back an instruction from the fields that its word packs, and the no-op from a word that no row selects. -/
theorem decodeWord_encode {i : Instr} (h : i.wellFormed = true) : decodeWord (encode i) = i := by
  cases i with
  | noop w => exact (isUnassigned_iff_decodeWord w).1 h
  | cls | ret => rfl
  | jp | call | seImm | sneImm | seReg | ldImm | addImm | ldI | rnd | drw => simp [encode, decodeWord]
  | ldReg | orReg | andReg | xorReg | addReg | subReg => simp [encode, decodeWord, decodeEight]
  | skp | sknp => simp [encode, decodeWord, decodeE]
  | ldVxDt | ldDtVx | ldStVx | addI | ldF | ldB | storeRegs | loadRegs => simp [encode, decodeWord, decodeF]

/-- An instruction's two bytes are read as its word, whatever follows them (30_encoding.md R80). -/
theorem decodeBytes_encodeBytes_append (i : Instr) (rest : List Byte) :
    decodeBytes (encodeBytes i ++ rest) = .ok (decodeWord (encode i), rest) := by
  simp only [encodeBytes, List.cons_append, List.nil_append, decodeBytes, wordOfBytes_halves]

/-- Settles O1: on bytes the decoder reads the encoder's word, and on that word it reads the packed fields. -/
theorem decodeOfEncodeGivesInstructionBack : Obligations.DecodeOfEncodeGivesInstructionBack := fun i h =>
  ⟨decodeWord_encode h, fun rest => by rw [decodeBytes_encodeBytes_append, decodeWord_encode h]⟩

/-! ## Encoding a decoded word

A word is its opcode nibble and the fields of its format, packed. -/

section Pack
variable {w : Word} {op n : Nibble} {nn : Byte}

theorem packNnn_of_op (ho : opField w = op) : packNnn op (nnnField w) = w := by
  subst ho
  apply BitVec.eq_of_toNat_eq
  rw [packNnn_toNat, opField_val, nnnField_toNat]
  omega

theorem packXnn_of_op_nn (ho : opField w = op) (hnn : nnField w = nn) : packXnn op (xField w) nn = w := by
  subst ho hnn
  apply BitVec.eq_of_toNat_eq
  rw [packXnn_toNat, opField_val, xField_val, nnField_toNat]
  omega

theorem packXyn_of_op_n (ho : opField w = op) (hn : nField w = n) : packXyn op (xField w) (yField w) n = w := by
  subst ho hn
  apply BitVec.eq_of_toNat_eq
  rw [packXyn_toNat, opField_val, xField_val, yField_val, nField_val]
  omega

end Pack

theorem encode_decodeZero (w : Word) : encode (decodeZero w) = w := by
  unfold decodeZero
  split
  · next hw => exact hw.symm
  split
  · next hw => exact hw.symm
  · rfl

theorem encode_decodeEight {w : Word} (ho : opField w = 0x8) : encode (decodeEight w) = w := by
  unfold decodeEight
  split
  iterate 6 next hn => exact packXyn_of_op_n ho hn
  rfl

theorem encode_decodeE {w : Word} (ho : opField w = 0xE) : encode (decodeE w) = w := by
  unfold decodeE
  iterate 2
    split
    · next hnn => exact packXnn_of_op_nn ho hnn
  rfl

theorem encode_decodeF {w : Word} (ho : opField w = 0xF) : encode (decodeF w) = w := by
  unfold decodeF
  iterate 8
    split
    · next hnn => exact packXnn_of_op_nn ho hnn
  rfl

/-- The encoder packs again the fields that the decoder took out, and a no-op carries its word (log entry 9). -/
theorem encode_decodeWord (w : Word) : encode (decodeWord w) = w := by
  unfold decodeWord
  match ho : opField w with
  | 0x0 => exact encode_decodeZero w
  | 0x1 | 0x2 | 0xA => exact packNnn_of_op ho
  | 0x3 | 0x4 | 0x6 | 0x7 | 0xC => exact packXnn_of_op_nn ho rfl
  | 0xD => exact packXyn_of_op_n ho rfl
  | 0x5 =>
    simp only
    split
    · next hn => exact packXyn_of_op_n ho hn
    · rfl
  | 0x8 => exact encode_decodeEight ho
  | 0x9 | 0xB => rfl
  | 0xE => exact encode_decodeE ho
  | 0xF => exact encode_decodeF ho
  | ⟨k + 16, hk⟩ => omega

theorem wellFormed_of_rowOf {i : Instr} {r : OpcodeRow} (h : rowOf i = some r) : i.wellFormed = true := by
  cases i with
  | noop w => cases h
  | _ => rfl

/-- An instruction of the map is well-formed by its type, and a word read as the no-op is one that no row selects. -/
theorem wellFormed_decodeWord (w : Word) : (decodeWord w).wellFormed = true := by
  cases hrow : rowOf (decodeWord w) with
  | some r => exact wellFormed_of_rowOf hrow
  | none =>
    have hnoop := decodeWord_eq_noop_of_rowOf hrow
    rw [hnoop]
    exact (isUnassigned_iff_decodeWord w).2 hnoop

/-- Settles O2: the decoder's answer is well-formed, and the encoder packs its fields again. -/
theorem everyWordDecodesAndEncodesBack : Obligations.EveryWordDecodesAndEncodesBack := fun w =>
  ⟨wellFormed_decodeWord w, encode_decodeWord w⟩

/-- Settles O6: a check of thirteen words. -/
theorem wordsWrittenFromTheMapDecode : Obligations.WordsWrittenFromTheMapDecode := by
  unfold Obligations.WordsWrittenFromTheMapDecode
  decide

/-! ## The placed word and the totality of the step -/

section Place
variable (s : State) (w : Word)

theorem State.readyToFetch_pc_le : s.readyToFetch.pc.toNat ≤ 0xFFE := by
  show (if s.canFetch then s.pc else BitVec.ofNat 16 programBase).toNat ≤ 0xFFE
  split
  · next h => exact of_decide_eq_true h
  · decide

theorem State.fetchWord_placeWord : (s.placeWord w).fetchWord = w :=
  ((holdsBytes_storeBytes s.readyToFetch _ _).fetchWord_eq rfl).trans (wordOfBytes_halves w)

/-- A state with `w` placed has no fault and a PC that can be fetched at, so the step runs the word it fetches. -/
theorem step_placeWord : step (s.placeWord w) = exec (decodeWord w) (s.placeWord w) := by
  have hstep := step_eq_exec (s := s.placeWord w) rfl s.readyToFetch_pc_le
  rwa [s.fetchWord_placeWord w] at hstep

theorem State.withFetchWord_toNat : s.withFetchWord 16 w.toNat = s.placeWord w := by
  rw [State.withFetchWord, Nat.mod_eq_of_lt w.isLt, BitVec.ofNat_toNat, BitVec.setWidth_eq]

end Place

/-- Settles O8: a word of 16 bits is placed as it is. -/
theorem stepRunsThePlacedWord : Obligations.StepRunsThePlacedWord := by
  intro s w
  rw [s.withFetchWord_toNat w]
  exact step_placeWord s w

/-- Settles O9: a step answers a state while faulted, on a fault's entry and from every instruction. -/
theorem everyStepAnswersANextState : Obligations.EveryStepAnswersANextState := by
  intro s
  obtain ⟨t, e, -⟩ := step_keepsControl s
  exact ⟨t, e⟩

/-! ## The random byte -/

theorem exec_rnd (x : Nibble) (nn : Byte) (s : State) :
    exec (.rnd x nn) s = .next (s.fetched.drawByte.2.setV x (Config.drawByte s.draws &&& nn)) := rfl

theorem keepsAllBut_withDraws (s : State) (n : Nat) : KeepsAllBut [.draws] s { s with draws := n } :=
  .of_pieces (by simp [Unchanged, State.getV, State.readByte])

/-- Settles O20: the byte drawn is masked, and its count is the one more field written. -/
theorem randomByteIsMasked : Obligations.RandomByteIsMasked := by
  obtain ⟨-, ⟨-, -, -, -, -, -, -, hrow, -⟩, -⟩ := opcodeMapIsReadByMaskAndMatch
  refine ⟨hrow, fun x nn s => ⟨_, exec_rnd x nn s, by simp, rfl, fun k _ hk => by simp [hk], fun j hj => by simp [hj], rfl,
    (keepsAllBut_withRegsPc s _ _).append (keepsAllBut_withDraws _ _)⟩⟩

end Sys2Proof.Machine
end
